-- ==== Sys2Proof/Word.lean ====
section
/-! DEFINITION. The word, byte and register-file types of the SHA-256 CORE (rules R5, R7, R20, R21, R24, R25). -/

namespace Sys2Proof

/-- A word: 32 bits, unsigned (R7). -/
abbrev Word := BitVec 32

/-- A byte: 8 bits (R7). -/
abbrev Byte := BitVec 8

/-- A command word of format C (R70). -/
abbrev CommandWord := BitVec 11

/-- A sequencer word of format U (R77). -/
abbrev SeqWord := BitVec 9

/-- The eight words of the hash state `H[0..7]` (R20), and of `IV[0..7]` (R23). -/
abbrev HashWords := Vector Word 8

/-- The sixty-four words of a message schedule `W[0..63]` (R24), and of `K[0..63]` (R22). -/
abbrev Schedule := Vector Word 64

/-- The sixty-four bytes of a block (R2, R25). -/
abbrev Block := Vector Byte 64

/-- The eight working variables `a, b, c, d, e, f, g, h` (R21). -/
structure WorkVars where
  a : Word
  b : Word
  c : Word
  d : Word
  e : Word
  f : Word
  g : Word
  h : Word
  deriving DecidableEq, Repr, Inhabited

end Sys2Proof
end

