-- ==== Sys2Proof/Config.lean ====
section
/-! DEFINITION. The free values: contents the spec calls unspecified (rules R21, R24, R34, R142, R200, list U3).
None has a body, so nothing can be proved about the value of one. The first argument is the number of the event
(a reset or an `ADDBACK`) that left the storage unspecified; the second, the index within the register file.
The CORE has no other parameter: every size is fixed (R5), and no rule depends on `T_STEP`. -/

namespace Sys2Proof.Config

/-- What `SEQ` holds after the event `n`. Log entry 3. -/
opaque freeSeq : Nat → SeqWord

/-- What working variable `v[i]` holds after the event `n`. Log entry 3. -/
opaque freeWork : Nat → Fin 8 → Word

/-- What `W[i]` holds after the event `n`. Log entry 3. -/
opaque freeSched : Nat → Fin 64 → Word

/-- What `BUF[p]` holds after the event `n`. Log entry 3. -/
opaque freeBuf : Nat → Fin 64 → Byte

end Sys2Proof.Config
end

