-- ==== Sys2Proof/Syntax.lean ====
section
/-! DEFINITION. The instructions: the five host commands and the five micro-operations of `spec/opcode_table.json`
(rules R71, R78), and the two kinds of code word they are read from. -/

namespace Sys2Proof

/-- One constructor per row of `spec/opcode_table.json`. -/
inductive Instr where
  /-- `INIT` (R110). -/
  | init
  /-- `PUSH d` (R111). -/
  | push (d : Byte)
  /-- `START` (R112). -/
  | start
  /-- `RDB k`, `k` in 0..31 (R150). -/
  | rdb (k : Fin 32)
  /-- `RDH n`, `n` in 0..63 (R151). -/
  | rdh (n : Fin 64)
  /-- `DESER j`, `j` in 0..15 (R120). -/
  | deser (j : Fin 16)
  /-- `EXPAND i`, `i` in 16..63 (R125): an index below 16 is ill-formed. -/
  | expand (i : Fin 64)
  /-- `WVINIT` (R136). -/
  | wvinit
  /-- `ROUND i`, `i` in 0..63 (R138). -/
  | round (i : Fin 64)
  /-- `ADDBACK` (R142). -/
  | addback
  deriving DecidableEq, Repr

/-- A code word with its format: a command word (format C, R70) is what the host presents, a sequencer word
(format U, R77) is what `SEQ` holds. Nothing in the bits says which format a word has. -/
inductive CodeWord where
  | command (w : CommandWord)
  | seq (w : SeqWord)
  deriving DecidableEq, Repr

/-- Why a decoder rejects a word, with the word. -/
inductive Reserved where
  /-- One of the 1694 reserved command words (R73). -/
  | command (w : CommandWord)
  /-- One of the 382 reserved `SEQ` values (R80). -/
  | seq (w : SeqWord)
  deriving DecidableEq, Repr

end Sys2Proof
end

