-- ==== Sys2Proof/WellFormed.lean ====
section
/-! DEFINITION. Which terms of `Instr` are instructions. Every operand range but one is in the operand's type. -/

namespace Sys2Proof

/-- `EXPAND i` needs `16 <= i` (R78: "0x040 / 0x1C0 and idx >= 16"); the other ranges are the operand types'. -/
def Instr.wf : Instr → Bool
  | .init => true
  | .push _ => true
  | .start => true
  | .rdb _ => true
  | .rdh _ => true
  | .deser _ => true
  | .expand i => decide (16 ≤ i.val)
  | .wvinit => true
  | .round _ => true
  | .addback => true

end Sys2Proof
end

