-- ==== Sys2Proof/Decode.lean ====
section
/-! DEFINITION. Decoding of command words (format C, rules R70 to R74) and of sequencer words (format U, rules R77, R78,
R80), the encoders beside them, and how a word of `spec/opcode_table.json` is read. -/

namespace Sys2Proof

/-! ### The fields of the two formats -/

/-- `op = cmd[10:8]` (R70). -/
def commandOp (w : CommandWord) : BitVec 3 := w.extractLsb 10 8

/-- `arg = cmd[7:0]` (R70). -/
def commandArg (w : CommandWord) : Byte := w.extractLsb 7 0

/-- `ph = SEQ[8:6]` (R77). -/
def seqPh (w : SeqWord) : BitVec 3 := w.extractLsb 8 6

/-- `idx = SEQ[5:0]` (R77). -/
def seqIdx (w : SeqWord) : BitVec 6 := w.extractLsb 5 0

/-- `op ++ arg` (R70). -/
def commandWord (op : BitVec 3) (arg : Byte) : CommandWord := op ++ arg

/-- `ph ++ idx` (R77). -/
def seqWord (ph : BitVec 3) (idx : BitVec 6) : SeqWord := ph ++ idx

/-! ### Decoders -/

/-- The opcode map of format C, row by row (R71); every other word is reserved (R73). Operands: R72. -/
def decodeCommand (w : CommandWord) : Except Reserved Instr :=
  if w &&& 0x7FF#11 = 0x000#11 then .ok .init
  else if w &&& 0x700#11 = 0x100#11 then .ok (.push (commandArg w))
  else if w &&& 0x7FF#11 = 0x200#11 then .ok .start
  else if w &&& 0x7E0#11 = 0x300#11 then .ok (.rdb (Fin.ofNat 32 (commandArg w).toNat))
  else if w &&& 0x7C0#11 = 0x400#11 then .ok (.rdh (Fin.ofNat 64 (commandArg w).toNat))
  else .error (.command w)

/-- The micro-operation map of format U, row by row (R78); every other value is reserved (R80). -/
def decodeMicro (w : SeqWord) : Except Reserved Instr :=
  if w &&& 0x1F0#9 = 0x000#9 then .ok (.deser (Fin.ofNat 16 (seqIdx w).toNat))
  else if w &&& 0x1C0#9 = 0x040#9 ∧ 16 ≤ (seqIdx w).toNat then .ok (.expand (Fin.ofNat 64 (seqIdx w).toNat))
  else if w &&& 0x1FF#9 = 0x080#9 then .ok .wvinit
  else if w &&& 0x1C0#9 = 0x0C0#9 then .ok (.round (Fin.ofNat 64 (seqIdx w).toNat))
  else if w &&& 0x1FF#9 = 0x100#9 then .ok .addback
  else .error (.seq w)

/-- Decoding by the word's own format; no mode bit changes it (R74). -/
def decode : CodeWord → Except Reserved Instr
  | .command w => decodeCommand w
  | .seq w => decodeMicro w

/-- The word spells a command (R71). -/
def legalCommand (w : CommandWord) : Bool :=
  match decodeCommand w with
  | .ok _ => true
  | .error _ => false

/-- The value is one of the legal positions of the sequencer (R78, R80). -/
def legalSeq (w : SeqWord) : Bool :=
  match decodeMicro w with
  | .ok _ => true
  | .error _ => false

/-! ### Encoders -/

/-- `SEQ` of `DESER j` (R78). -/
def seqDeser (j : Fin 16) : SeqWord := seqWord 0#3 (BitVec.ofNat 6 j.val)

/-- `SEQ` of `EXPAND i` (R78). -/
def seqExpand (i : Fin 64) : SeqWord := seqWord 1#3 (BitVec.ofNat 6 i.val)

/-- `SEQ` of `WVINIT` (R78). -/
def seqWvinit : SeqWord := seqWord 2#3 0#6

/-- `SEQ` of `ROUND i` (R78). -/
def seqRound (i : Fin 64) : SeqWord := seqWord 3#3 (BitVec.ofNat 6 i.val)

/-- `SEQ` of `ADDBACK` (R78). -/
def seqAddback : SeqWord := seqWord 4#3 0#6

/-- The word of an instruction (R71, R78). -/
def encode : Instr → CodeWord
  | .init => .command (commandWord 0#3 0#8)
  | .push d => .command (commandWord 1#3 d)
  | .start => .command (commandWord 2#3 0#8)
  | .rdb k => .command (commandWord 3#3 (BitVec.ofNat 8 k.val))
  | .rdh n => .command (commandWord 4#3 (BitVec.ofNat 8 n.val))
  | .deser j => .seq (seqDeser j)
  | .expand i => .seq (seqExpand i)
  | .wvinit => .seq seqWvinit
  | .round i => .seq (seqRound i)
  | .addback => .seq seqAddback

/-! ### Words of the opcode table

The table's rows have 11 bits (format C) or 9 bits (format U), and nothing in a word says which: in whole bytes both take
16 bits, and two words are legal in both formats, `0x000` (`INIT`, `DESER 0`) and `0x100` (`PUSH 0x00`, `ADDBACK`). There
the row without an operand is taken, because the other row has further words. Log entry 6. -/

/-- The instruction has no operand, so its row of the table is one word. -/
def Instr.oneWord : Instr → Bool
  | .init => true
  | .start => true
  | .wvinit => true
  | .addback => true
  | .push _ => false
  | .rdb _ => false
  | .rdh _ => false
  | .deser _ => false
  | .expand _ => false
  | .round _ => false

/-- The format of a table word of 16 or more bits: format C where it is a command, unless it is also the one word of a
micro-operation without an operand; format U where it is a micro-operation and no command; else format C (reserved). -/
def sharedTableCode (w : Nat) : CodeWord :=
  let c := BitVec.ofNat 11 w
  let u := BitVec.ofNat 9 w
  if w < 512 then
    match decodeMicro u, decodeCommand c with
    | .error _, _ => .command c
    | .ok _, .error _ => .seq u
    | .ok i, .ok _ => if i.oneWord then .seq u else .command c
  else .command c

/-- The code word of an opcode-table word `w` of `nbits` bits; none where a bit above the row's width is set. -/
def tableCode (nbits w : Nat) : Option CodeWord :=
  if nbits ≤ 9 then
    if w < 512 then some (.seq (BitVec.ofNat 9 w)) else none
  else if 2048 ≤ w then none
  else if nbits ≤ 11 then some (.command (BitVec.ofNat 11 w))
  else some (sharedTableCode w)

/-- The instruction the decoder reads from an opcode-table word. -/
def decodeTableWord (nbits w : Nat) : Option Instr :=
  match tableCode nbits w with
  | none => none
  | some c =>
    match decode c with
    | .ok i => some i
    | .error _ => none

end Sys2Proof
end

