-- ==== Sys2Proof/Machine/Primitives.lean ====
section
/-! DEFINITION. The combinational functions of the datapath (rules R90 to R103, R121, R139, R150, R151, R153). Addition
modulo 2^32, `xor`, `and`, `or` and `not` are `BitVec`'s own `+`, `^^^`, `&&&`, `|||` and `~~~` on words (R90, R92, R93). -/

namespace Sys2Proof.Machine

/-- `rotr(x, n)`, `1 <= n <= 31`: "((x >> n) | (x << (32-n))) mod 2^32" (R94). -/
def rotr (x : Word) (n : Nat) : Word := (x >>> n) ||| (x <<< (32 - n))

/-- `shr(x, n)`: the logical right shift (R95). -/
def shr (x : Word) (n : Nat) : Word := x >>> n

/-- `ssig0` (R96). -/
def ssig0 (x : Word) : Word := rotr x 7 ^^^ rotr x 18 ^^^ shr x 3

/-- `ssig1` (R97). -/
def ssig1 (x : Word) : Word := rotr x 17 ^^^ rotr x 19 ^^^ shr x 10

/-- `bsig0` (R98). -/
def bsig0 (x : Word) : Word := rotr x 2 ^^^ rotr x 13 ^^^ rotr x 22

/-- `bsig1` (R99). -/
def bsig1 (x : Word) : Word := rotr x 6 ^^^ rotr x 11 ^^^ rotr x 25

/-- `ch` (R100). -/
def ch (e f g : Word) : Word := (e &&& f) ^^^ (~~~e &&& g)

/-- `maj` (R101). -/
def maj (a b c : Word) : Word := (a &&& b) ^^^ (a &&& c) ^^^ (b &&& c)

/-- `be32`: four bytes to one word, the first the most significant (R121). -/
def be32 (b0 b1 b2 b3 : Byte) : Word := b0 ++ b1 ++ b2 ++ b3

/-- Byte lane `s` of a word, lane 0 the most significant: `(x >> (8 * (3 - s))) and 0xFF` (R150). -/
def byteLane (x : Word) (s : Fin 4) : Byte := (x >>> (8 * (3 - s.val))).setWidth 8

/-- Nibble lane `s` of a word, lane 0 the most significant: `(x >> (4 * (7 - s))) and 0xF` (R151). -/
def nibbleLane (x : Word) (s : Fin 8) : BitVec 4 := (x >>> (4 * (7 - s.val))).setWidth 4

/-- `hexchar`: the character code of a lowercase hexadecimal digit (R153). -/
def hexchar (v : BitVec 4) : Byte :=
  if v ≤ 9#4 then 0x30#8 + v.setWidth 8 else 0x61#8 + (v.setWidth 8 - 10#8)

/-- `t1` of a round (R138, R139). -/
def roundT1 (v : WorkVars) (k w : Word) : Word := v.h + bsig1 v.e + ch v.e v.f v.g + k + w

/-- `t2` of a round (R138, R139). -/
def roundT2 (v : WorkVars) : Word := bsig0 v.a + maj v.a v.b v.c

/-- `round(v, k, w)` (R139). -/
def compressionRound (v : WorkVars) (k w : Word) : WorkVars :=
  { a := roundT1 v k w + roundT2 v
    b := v.a
    c := v.b
    d := v.c
    e := v.d + roundT1 v k w
    f := v.e
    g := v.f
    h := v.g }

/-- The eight working variables taken from eight words, as `WVINIT` does (R136). -/
def workOfHash (x : HashWords) : WorkVars :=
  { a := x[0], b := x[1], c := x[2], d := x[3], e := x[4], f := x[5], g := x[6], h := x[7] }

/-- The working variables in index form, `v[0] = a, ..., v[7] = h` (R21). -/
def hashOfWork (v : WorkVars) : HashWords := #v[v.a, v.b, v.c, v.d, v.e, v.f, v.g, v.h]

/-- The eight sums of `ADDBACK`, each modulo 2^32 (R142). -/
def addBack (x : HashWords) (v : WorkVars) : HashWords :=
  #v[x[0] + v.a, x[1] + v.b, x[2] + v.c, x[3] + v.d, x[4] + v.e, x[5] + v.f, x[6] + v.g, x[7] + v.h]

end Sys2Proof.Machine
end

