-- ==== Sys2Proof/Machine/State.lean ====
section
/-! DEFINITION. The state of one CORE (section `10_state.md`), its interface to the host (rules R6, R76, R81), the reasons a step
can stop, and the state after reset (rule R34). -/

namespace Sys2Proof.Machine

/-- `PHASE`: `IDLE`, `BUSY` or `FAULT` (R30). Its code 3 is no constructor (U10). -/
inductive Phase where
  | idle
  | busy
  | fault
  deriving DecidableEq, Repr

/-- The two faults of the CORE (R180, R181). -/
inductive BlockFault where
  /-- `BlockUnderrun`, cause code 1: `START` with `CNT != 64`. -/
  | underrun
  /-- `BlockOverrun`, cause code 2: `PUSH` with `CNT = 64`. -/
  | overrun
  deriving DecidableEq, Repr

/-- A response to the host (R76: "a model uses a three-constructor type"). -/
inductive Response where
  | ack
  | data (v : Byte)
  | fault (c : BlockFault)
  deriving DecidableEq, Repr

/-- What the host does in one step (R6): nothing, present a command word, wait until the commands it has presented have
their responses (R162, R206), or cause a reset. Log entry 1. -/
inductive HostAct where
  | quiet
  | present (w : CommandWord)
  | await
  | reset
  deriving DecidableEq, Repr

/-- The state of one CORE and of its interface to the host. -/
structure State where
  /-- `H[0..7]` (R20). -/
  hash : HashWords
  /-- `a..h` (R21). -/
  work : WorkVars
  /-- `W[0..63]` (R24). -/
  sched : Schedule
  /-- `BUF[0..63]` (R25). -/
  buf : Block
  /-- `CNT`, legal values 0..64 (R26). -/
  cnt : Fin 65
  /-- `PHASE` (R30). -/
  phase : Phase
  /-- `SEQ`, the sequencer word: this machine's program counter (R31). -/
  seq : SeqWord
  /-- `FCAUSE`: none is the value 0, no fault (R27). -/
  fcause : Option BlockFault
  /-- The command word presented and not yet accepted: at most one (R81). -/
  port : Option CommandWord
  /-- The responses the host has received, the first one first (R76, R210). -/
  responses : List Response
  /-- What the host will do, one act a step, the next one first; log entry 1. -/
  host : List HostAct
  /-- The model's own field: how many events have left storage unspecified; the next one's free values are those of
  this number. Log entry 4. -/
  freeIdx : Nat
  deriving DecidableEq, Repr

/-- Why a step stops with a fault: no reason exists. The two faults of the CORE (R180, R181) are next states in
`PHASE = FAULT`, and nothing else faults (R182). Safe. Log entry 8. -/
inductive Fault where
  deriving DecidableEq, Repr

/-- Why a step has no meaning. -/
inductive Refusal where
  /-- Raised by `exec` for an instruction without a meaning; no arm of this model raises it. Safe. -/
  | notModelled (mnemonic : String)
  /-- Raised when the host presents a reserved command word, in any phase (R73, R212, U1), when `SEQ` holds a reserved value in `BUSY`
  (R80, U2), and by an `EXPAND` whose index is below 16, which is such a value. Safe: the spec gives no step. -/
  | reserved (r : Reserved)
  deriving DecidableEq, Repr

/-- The working variables that an event numbered `n` leaves. -/
def freeWorkVars (n : Nat) : WorkVars :=
  { a := Config.freeWork n 0, b := Config.freeWork n 1, c := Config.freeWork n 2, d := Config.freeWork n 3
    e := Config.freeWork n 4, f := Config.freeWork n 5, g := Config.freeWork n 6, h := Config.freeWork n 7 }

/-- The machine right after reset (R34): `PHASE = IDLE`, `CNT = 0`, `FCAUSE = 0`, `H = IV`; `SEQ`, `a..h`, `W`, `BUF`
unspecified, here the free values of event 0 (log entry 3). No command presented, no response given, no host act listed. -/
def State.reset : State :=
  { hash := IV
    work := freeWorkVars 0
    sched := Vector.ofFn (Config.freeSched 0)
    buf := Vector.ofFn (Config.freeBuf 0)
    cnt := 0
    phase := .idle
    seq := Config.freeSeq 0
    fcause := none
    port := none
    responses := []
    host := []
    freeIdx := 1 }

end Sys2Proof.Machine
end

