-- ==== Sys2Proof/Machine/Flags.lean ====
section
/-! DEFINITION. The status of the CORE: it has no flag or condition code (rule R32); what it keeps is `PHASE`, `CNT` and
`FCAUSE`, with the numbers of their codes (rules R26, R27, R30) and the one status test, `CNT = 64` (rule R102). -/

namespace Sys2Proof.Machine

/-- The 2-bit code of `PHASE` (R30). -/
def phaseCode : Phase → BitVec 2
  | .idle => 0#2
  | .busy => 1#2
  | .fault => 2#2

/-- The cause code of a fault (R180, R181). -/
def causeCode : BlockFault → BitVec 2
  | .underrun => 1#2
  | .overrun => 2#2

/-- The 2-bit value of `FCAUSE` (R27). -/
def fcauseCode : Option BlockFault → BitVec 2
  | none => 0#2
  | some c => causeCode c

/-- The 7-bit value of `CNT` (R26). -/
def cntCode (c : Fin 65) : BitVec 7 := BitVec.ofNat 7 c.val

/-- `CNT = 64`: a whole block has been pushed (R26). -/
def State.blockFull (s : State) : Bool := decide (s.cnt = 64)

end Sys2Proof.Machine
end

