-- ==== Sys2Proof/Machine/Operands.lean ====
section
/-! DEFINITION. Every effective index (rule R62) and the successor of every position of the sequencer (rule R79). -/

namespace Sys2Proof.Machine

/-- Where `PUSH` writes: `CNT` where `CNT <= 63`, else nowhere (R62). -/
def pushIndex (c : Fin 65) : Option (Fin 64) :=
  if h : c.val < 64 then some ⟨c.val, h⟩ else none

/-- `CNT + 1`, for a `CNT` below 64 (R111). -/
def cntAfterPush (p : Fin 64) : Fin 65 := ⟨p.val + 1, by omega⟩

/-- The first of the four bytes `DESER j` reads (R62). -/
def deserBase (j : Fin 16) : Nat := 4 * j.val

/-- The word `DESER j` writes (R62). -/
def deserTarget (j : Fin 16) : Fin 64 := ⟨j.val, by omega⟩

/-- `i - back`, an index `EXPAND i` reads (R62). -/
def expandSource (i : Fin 64) (back : Nat) : Fin 64 := ⟨i.val - back, by omega⟩

/-- The word `k div 4` that `RDB k` reads (R150). -/
def rdbWord (k : Fin 32) : Fin 8 := ⟨k.val / 4, by omega⟩

/-- The byte lane `k mod 4` that `RDB k` reads (R150). -/
def rdbLane (k : Fin 32) : Fin 4 := ⟨k.val % 4, by omega⟩

/-- The word `n div 8` that `RDH n` reads (R151). -/
def rdhWord (n : Fin 64) : Fin 8 := ⟨n.val / 8, by omega⟩

/-- The nibble lane `n mod 8` that `RDH n` reads (R151). -/
def rdhLane (n : Fin 64) : Fin 8 := ⟨n.val % 8, by omega⟩

/-- `next(DESER j)` (R79). -/
def nextDeser (j : Fin 16) : SeqWord := if j.val < 15 then seqDeser (j + 1) else seqExpand 16

/-- `next(EXPAND i)` (R79). -/
def nextExpand (i : Fin 64) : SeqWord := if i.val < 63 then seqExpand (i + 1) else seqWvinit

/-- `next(ROUND i)` (R79). -/
def nextRound (i : Fin 64) : SeqWord := if i.val < 63 then seqRound (i + 1) else seqAddback

end Sys2Proof.Machine
end

