-- ==== Sys2Proof/Machine/Ops.lean ====
section
/-! DEFINITION. The shared operations over the state: reads and writes of the register files and of `BUF` (rules R8, R36), the
response to the host (rule R76), fault entry (rule R183), reset, the only way out of a fault (rules R185, R200), and what
the end of a block leaves unspecified (rule R142). -/

namespace Sys2Proof.Machine

/-! ### Registers and storage -/

/-- `H[i]`. -/
def State.readHash (s : State) (i : Fin 8) : Word := s.hash[i]

/-- All eight words of `H`. -/
def State.writeHash (s : State) (x : HashWords) : State := { s with hash := x }

/-- `W[i]`. -/
def State.readSched (s : State) (i : Fin 64) : Word := s.sched[i]

/-- `W[i] <- x`. -/
def State.writeSched (s : State) (i : Fin 64) (x : Word) : State := { s with sched := s.sched.set i.val x }

/-- `(a, b, c, d, e, f, g, h) <- v`. -/
def State.writeWork (s : State) (v : WorkVars) : State := { s with work := v }

/-- `BUF[p]`. -/
def State.readBuf (s : State) (p : Fin 64) : Byte := s.buf[p]

/-- `MemRead(p, n)`: the `n` bytes from `BUF[p]` on, the first the most significant; defined only for `p + n <= 64`
(R8, R50). -/
def State.memRead (s : State) (p : Nat) : (n : Nat) → BitVec (8 * n)
  | 0 => 0#0
  | n + 1 => s.memRead p n ++ s.readBuf (Fin.ofNat 64 (p + n))

/-- `MemWrite(p, 1, v)`: only single-byte writes exist (R8). -/
def State.memWrite (s : State) (p : Fin 64) (v : Byte) : State := { s with buf := s.buf.set p.val v }

/-- `CNT <- c`. -/
def State.writeCnt (s : State) (c : Fin 65) : State := { s with cnt := c }

/-- `SEQ <- target` (R8, R31). -/
def State.writeSeq (s : State) (w : SeqWord) : State := { s with seq := w }

/-- `PHASE <- p`. -/
def State.writePhase (s : State) (p : Phase) : State := { s with phase := p }

/-! ### Responses, faults, reset -/

/-- The host receives one response (R76). -/
def State.respond (s : State) (r : Response) : State := { s with responses := s.responses ++ [r] }

/-- Fault entry: `FCAUSE <- c`, `PHASE <- FAULT`, respond `FAULT(c)`, and nothing else (R183). -/
def State.raise (s : State) (c : BlockFault) : State :=
  State.respond { s with fcause := some c, phase := .fault } (.fault c)

/-- Reset (R200), in any phase the only way back from a fault (R185): `PHASE`, `CNT`, `FCAUSE`, `H` take their reset
values, `SEQ`, `a..h`, `W`, `BUF` become unspecified, a held or outstanding command is dropped without response. -/
def State.resetEvent (s : State) : State :=
  { hash := IV
    work := freeWorkVars s.freeIdx
    sched := Vector.ofFn (Config.freeSched s.freeIdx)
    buf := Vector.ofFn (Config.freeBuf s.freeIdx)
    cnt := 0
    phase := .idle
    seq := Config.freeSeq s.freeIdx
    fcause := none
    port := none
    responses := s.responses
    host := s.host
    freeIdx := s.freeIdx + 1 }

/-- What `ADDBACK` leaves unspecified: `SEQ`, `a..h`, `W` and `BUF` (R142, R113, conflict C7). -/
def State.discardBlock (s : State) : State :=
  { s with
    work := freeWorkVars s.freeIdx
    sched := Vector.ofFn (Config.freeSched s.freeIdx)
    buf := Vector.ofFn (Config.freeBuf s.freeIdx)
    seq := Config.freeSeq s.freeIdx
    freeIdx := s.freeIdx + 1 }

end Sys2Proof.Machine
end

