-- ==== Sys2Proof/Machine/Deserializer.lean ====
section
/-! DEFINITION. The block-input deserializer: the micro-operation `DESER` (rule R120). -/

namespace Sys2Proof.Machine

/-- `DESER j`: `W[j] <- MemRead(4*j, 4)` (R120). -/
def execDeser (j : Fin 16) (s : State) : Host.Outcome State Fault Refusal :=
  .next ((s.writeSched (deserTarget j) (s.memRead (deserBase j) 4)).writeSeq (nextDeser j))

end Sys2Proof.Machine
end

