-- ==== Sys2Proof/Machine/DigestSerializer.lean ====
section
/-! DEFINITION. The digest serializer: the host commands `RDB`, `RDH` (rules R150, R151) and the two whole-digest views
(rule R154). -/

namespace Sys2Proof.Machine

/-- Digest byte `k` of a hash state (R51, R150). -/
def digestByte (x : HashWords) (k : Fin 32) : Byte := byteLane x[rdbWord k] (rdbLane k)

/-- The nibble of a hash state that hexadecimal character `n` spells (R51, R151). -/
def digestNibble (x : HashWords) (n : Fin 64) : BitVec 4 := nibbleLane x[rdhWord n] (rdhLane n)

/-- Hexadecimal character `n` of a hash state (R51, R151). -/
def digestChar (x : HashWords) (n : Fin 64) : Byte := hexchar (digestNibble x n)

/-- `digest_bytes(H)` (R154). -/
def digestBytes (x : HashWords) : List Byte := (List.finRange 32).map (digestByte x)

/-- `digest_hex(H)` (R154). -/
def digestHex (x : HashWords) : List Byte := (List.finRange 64).map (digestChar x)

/-- `RDB k`: read digest byte `k` (R150). -/
def execRdb (k : Fin 32) (s : State) : Host.Outcome State Fault Refusal :=
  .next (s.respond (.data (digestByte s.hash k)))

/-- `RDH n`: read digest hexadecimal character `n` (R151). -/
def execRdh (n : Fin 64) (s : State) : Host.Outcome State Fault Refusal :=
  .next (s.respond (.data (digestChar s.hash n)))

end Sys2Proof.Machine
end

