-- ==== Sys2Proof/Machine/HostCommands.lean ====
section
/-! DEFINITION. The host commands `INIT`, `PUSH`, `START` (rules R110 to R112). That a command executes only in
`PHASE = IDLE` is the acceptance rule R81, which `fetch` applies; it is "not a test the command makes"
(`41_host_commands.md`). -/

namespace Sys2Proof.Machine

/-- `INIT`: begin a new message (R110). -/
def execInit (s : State) : Host.Outcome State Fault Refusal :=
  .next (((s.writeHash IV).writeCnt 0).respond .ack)

/-- `PUSH d`: append one byte to the block, or `BlockOverrun` where the block is full (R111, R181). -/
def execPush (d : Byte) (s : State) : Host.Outcome State Fault Refusal :=
  match pushIndex s.cnt with
  | some p => .next (((s.memWrite p d).writeCnt (cntAfterPush p)).respond .ack)
  | none => .next (s.raise .overrun)

/-- `START`: compress the block, or `BlockUnderrun` where it is not whole (R112, R180). The `ACK` is `ADDBACK`'s. -/
def execStart (s : State) : Host.Outcome State Fault Refusal :=
  if s.blockFull then .next ((s.writePhase .busy).writeSeq (seqDeser 0))
  else .next (s.raise .underrun)

end Sys2Proof.Machine
end

