-- ==== Sys2Proof/Machine/RoundEngine.lean ====
section
/-! DEFINITION. The compression-round engine: the micro-operations `WVINIT`, `ROUND`, `ADDBACK` (rules R136, R138, R142). -/

namespace Sys2Proof.Machine

/-- `WVINIT`: load the working variables from the hash state (R136). -/
def execWvinit (s : State) : Host.Outcome State Fault Refusal :=
  .next ((s.writeWork (workOfHash s.hash)).writeSeq (seqRound 0))

/-- `ROUND i`: one compression round with `K[i]` and `W[i]` (R138). -/
def execRound (i : Fin 64) (s : State) : Host.Outcome State Fault Refusal :=
  .next ((s.writeWork (compressionRound s.work K[i] (s.readSched i))).writeSeq (nextRound i))

/-- `ADDBACK`: add the working variables into the hash state, end the block, answer the `START` (R142). -/
def execAddback (s : State) : Host.Outcome State Fault Refusal :=
  .next (((((s.writeHash (addBack s.hash s.work)).writeCnt 0).writePhase .idle).discardBlock).respond .ack)

end Sys2Proof.Machine
end

