-- ==== Sys2Proof/Machine/ScheduleExpander.lean ====
section
/-! DEFINITION. The message-schedule expander: the micro-operation `EXPAND` (rule R125). -/

namespace Sys2Proof.Machine

/-- The word `EXPAND i` derives: `W[i-16] + ssig0(W[i-15]) + W[i-7] + ssig1(W[i-2])` (R125). -/
def expandWord (w : Schedule) (i : Fin 64) : Word :=
  w[expandSource i 16] + ssig0 w[expandSource i 15] + w[expandSource i 7] + ssig1 w[expandSource i 2]

/-- `EXPAND i` (R125). An index below 16 is no micro-operation: its `SEQ` value is reserved (R80). Log entry 9. -/
def execExpand (i : Fin 64) (s : State) : Host.Outcome State Fault Refusal :=
  if 16 ≤ i.val then .next ((s.writeSched i (expandWord s.sched i)).writeSeq (nextExpand i))
  else .refused (.reserved (.seq (seqExpand i)))

end Sys2Proof.Machine
end

