-- ==== Sys2Proof/Machine/Dispatch.lean ====
section
/-! DEFINITION. The meaning of every instruction: one arm per constructor of `Instr`. -/

namespace Sys2Proof.Machine

-- Host commands (`41_host_commands.md`, `45_digest_serializer.md`), then micro-operations (`42` to `44`).
def exec (i : Instr) (s : State) : Host.Outcome State Fault Refusal :=
  match i with
  | .init => Sys2Proof.Machine.execInit s
  | .push d => Sys2Proof.Machine.execPush d s
  | .start => Sys2Proof.Machine.execStart s
  | .rdb k => Sys2Proof.Machine.execRdb k s
  | .rdh n => Sys2Proof.Machine.execRdh n s
  | .deser j => Sys2Proof.Machine.execDeser j s
  | .expand n => Sys2Proof.Machine.execExpand n s
  | .wvinit => Sys2Proof.Machine.execWvinit s
  | .round n => Sys2Proof.Machine.execRound n s
  | .addback => Sys2Proof.Machine.execAddback s

end Sys2Proof.Machine
end

