-- ==== Sys2Proof/Machine/Fetch.lean ====
section
/-! DEFINITION. Which agent moves and what it runs: the host's act, acceptance of a command by `PHASE` (rule R81), the hold
in `BUSY` (rule R207), the micro-operation `SEQ` names (rules R77, R78), the priority of reset (rule R184). -/

namespace Sys2Proof.Machine

/-- What a step is to do. -/
inductive Fetched where
  /-- Run the instruction in the state. -/
  | run (i : Instr) (s : State)
  /-- No instruction runs; the state is the next state. -/
  | done (s : State)
  /-- The word to be decoded is reserved. -/
  | reject (r : Reserved)
  deriving DecidableEq, Repr

/-- A command that the host has presented still has no response, and one will come: the `START` of the block in `BUSY`, the
word at the port in `IDLE`. In `FAULT` no response will come (R81, R210). -/
def State.awaiting (s : State) : Bool :=
  match s.phase with
  | .idle => s.port.isSome
  | .busy => true
  | .fault => false

/-- The host's act in a step that is no reset. A presented word stands at the port until it is accepted. While one stands
there the host waits with the next (R81: one at a time), but in `FAULT`, where no command is ever accepted, a further one
is of no effect and passes (R81, R185, R210). An `await` stays the host's act as long as a response is to come. Log
entry 2. -/
def State.hostActs (s : State) : State :=
  match s.host with
  | [] => s
  | .reset :: _ => s
  | .quiet :: rest => { s with host := rest }
  | .await :: rest => if s.awaiting then s else { s with host := rest }
  | .present w :: rest =>
    match s.port, s.phase with
    | none, _ => { s with port := some w, host := rest }
    | some _, .fault => { s with host := rest }
    | some _, _ => s

/-- The agent's own part of a step: in `BUSY` the micro-operation of `SEQ`, whatever stands at the port; in `IDLE` the
command at the port, if there is one; in `FAULT` nothing (R81). -/
def State.agentStep (s : State) : Fetched :=
  match s.phase with
  | .busy =>
    match decodeMicro s.seq with
    | .ok i => .run i s
    | .error r => .reject r
  | .idle =>
    match s.port with
    | none => .done s
    | some w =>
      match decodeCommand w with
      | .ok i => .run i { s with port := none }
      | .error r => .reject r
  | .fault => .done s

/-- The command word an act presents. -/
def HostAct.word : HostAct → Option CommandWord
  | .quiet => none
  | .present w => some w
  | .await => none
  | .reset => none

/-- The command words the host holds out in this step: the one at the port, and the one its next act presents. -/
def State.presentedWords (s : State) : List CommandWord := s.port.toList ++ (s.host.head?.bind HostAct.word).toList

/-- The reserved word among them, if there is one: the machine has no step then, in any phase (R73, U1; R212: "a model gives
that no move"). Log entry 20. -/
def State.reservedWord (s : State) : Option CommandWord := s.presentedWords.find? fun w => !legalCommand w

/-- What the next step does. A reset wins over whatever would coincide with it (R184). -/
def State.fetch (s : State) : Fetched :=
  match s.host with
  | .reset :: rest => .done (State.resetEvent { s with host := rest })
  | _ =>
    match s.reservedWord with
    | some w => .reject (.command w)
    | none => s.hostActs.agentStep

/-- The state with a code word placed where the next step finds its instruction: a command word presented by the host to
an `IDLE` machine with nothing at the port, a sequencer word in `SEQ` of a `BUSY` machine in a step in which the host does
nothing; a reserved word at the port, with which there is no step, is taken away. -/
def State.placeCode (s : State) : CodeWord → State
  | .command w => { s with phase := .idle, port := none, host := .present w :: s.host }
  | .seq w => { s with phase := .busy, seq := w, port := s.port.filter legalCommand, host := .quiet :: s.host }

end Sys2Proof.Machine
end

