-- ==== Sys2Proof/Machine/Step.lean ====
section
/-! DEFINITION. One step of the machine: one act of the host with one micro-operation, one command, or neither
(rules R6, R58, R81). Log entry 1. -/

namespace Sys2Proof.Machine

/-- One step. -/
def step (s : State) : Host.Outcome State Fault Refusal :=
  match s.fetch with
  | .run i t => exec i t
  | .done t => .next t
  | .reject r => .refused (.reserved r)

/-- The state in which the very next step runs the opcode-table word `w` of `nbits` bits. A word with a bit above its
row's width is no code word: a reserved command word stands for it. Log entry 6. -/
def State.withFetchWord (s : State) (nbits w : Nat) : State :=
  match tableCode nbits w with
  | some c => s.placeCode c
  | none => s.placeCode (.command 0x7FF#11)

end Sys2Proof.Machine
end

