-- ==== Sys2Proof/Machine/Block.lean ====
section
/-! DEFINITION. The pure functions of a whole block: `words`, `schedule`, `compress` (rules R122, R130, R145), and the order of the
micro-operations of a block (rule R79). The micro-step machine is the definition of what a `START` does; these say what
it comes to (rule R113). -/

namespace Sys2Proof.Machine

/-- `words(B)[j]`: the four bytes `B[4j..4j+3]` as one big-endian word (R122). -/
def inputWord (B : Block) (j : Fin 16) : Word :=
  be32 B[4 * j.val] B[4 * j.val + 1] B[4 * j.val + 2] B[4 * j.val + 3]

/-- The schedule after its first `16 + n` words: the input words, then `n` derived ones; the others are zero here and
belong to no schedule. -/
def scheduleUpTo (B : Block) : Nat → Schedule
  | 0 => Vector.ofFn fun i => if h : i.val < 16 then inputWord B ⟨i.val, h⟩ else 0#32
  | n + 1 =>
    let w := scheduleUpTo B n
    let i := Fin.ofNat 64 (16 + n)
    w.set i.val (expandWord w i)

/-- `schedule(B)` (R130). -/
def schedule (B : Block) : Schedule := scheduleUpTo B 48

/-- The working variables after `n` rounds on the schedule `w` (R145). -/
def roundsFrom (w : Schedule) (v : WorkVars) : Nat → WorkVars
  | 0 => v
  | n + 1 => compressionRound (roundsFrom w v n) K[Fin.ofNat 64 n] w[Fin.ofNat 64 n]

/-- `compress(h, B)` (R145). -/
def compress (x : HashWords) (B : Block) : HashWords :=
  addBack x (roundsFrom (schedule B) (workOfHash x) 64)

/-- The 130 micro-operations of a block, in order (R79). -/
def microOrder : List Instr :=
  (List.finRange 16).map Instr.deser
    ++ (List.finRange 48).map (fun k => Instr.expand ⟨16 + k.val, by omega⟩)
    ++ [Instr.wvinit]
    ++ (List.finRange 64).map Instr.round
    ++ [Instr.addback]

end Sys2Proof.Machine
end

