-- ==== Sys2Proof/Machine/HostSoftware.lean ====
section
/-! DEFINITION. The host's side of the CORE: padding, the block loop, text, the Verifier (rules R160 to R167) and the
pseudo-instructions of rule R75. Nothing here is hardware (rule R4); it is what the host does with the CORE. -/

namespace Sys2Proof.Machine

/-! ### Padding and the digest of a message -/

/-- `bl = (8 * L) mod 2^64` (R160, R163). -/
def bitLength (L : Nat) : BitVec 64 := BitVec.ofNat 64 (8 * L)

/-- `z = (55 - L) mod 64`, the number of zero bytes (R160). -/
def padZeros (L : Nat) : Nat := (119 - L % 64) % 64

/-- The eight bytes of the bit length, the most significant first (R160). -/
def lengthBytes (bl : BitVec 64) : List Byte :=
  [bl.extractLsb 63 56, bl.extractLsb 55 48, bl.extractLsb 47 40, bl.extractLsb 39 32,
   bl.extractLsb 31 24, bl.extractLsb 23 16, bl.extractLsb 15 8, bl.extractLsb 7 0]

/-- `pad(m)` (R160). -/
def pad (m : List Byte) : List Byte :=
  m ++ [0x80#8] ++ List.replicate (padZeros m.length) 0#8 ++ lengthBytes (bitLength m.length)

/-- The number `N` of blocks of the padded message: `floor((L + 8) / 64) + 1` (R161). -/
def blockCount (L : Nat) : Nat := (L + 8) / 64 + 1

/-- Bytes `64t .. 64t+63` of a padded message (R162). -/
def blockAt (p : List Byte) (t : Nat) : Block := Vector.ofFn fun i => p.getD (64 * t + i.val) 0#8

/-- `h(t)`: the hash state after `t` blocks of `pad(m)` (R164). -/
def hashAfter (m : List Byte) : Nat → HashWords
  | 0 => IV
  | t + 1 => compress (hashAfter m t) (blockAt (pad m) t)

/-- `sha256_bytes(m)` (R164). -/
def sha256Bytes (m : List Byte) : List Byte := digestBytes (hashAfter m (blockCount m.length))

/-- `sha256_hex(m)` (R164). -/
def sha256Hex (m : List Byte) : List Byte := digestHex (hashAfter m (blockCount m.length))

/-! ### Text and the Verifier -/

/-- Text as bytes in UTF-8, by Lean's own encoder (R165: "The UTF-8 encoding itself is not given by D0"). Log entry 11. -/
def textBytes (t : String) : List Byte := t.toUTF8.data.toList.map UInt8.toBitVec

/-- The hexadecimal digest of a text as a string of 64 characters. -/
def hasherText (t : String) : String :=
  String.ofList ((sha256Hex (textBytes t)).map fun c => Char.ofNat c.toNat)

/-- The Verifier: exact, case-sensitive equality of strings (R167). -/
def verify (t candidate : String) : Bool := hasherText t == candidate

/-! ### Pseudo-instructions -/

/-- The host presents a command and awaits its response (R162, R206); a micro-operation it cannot issue (R75). -/
def issue (i : Instr) : List HostAct :=
  match encode i with
  | .command w => [.present w, .await]
  | .seq _ => []

/-- The host presents a command and does not await its response, which R212 allows: the command is held where it must
be (R207). -/
def presentEarly (i : Instr) : List HostAct :=
  match encode i with
  | .command w => [.present w]
  | .seq _ => []

/-- `BLOCK b0 ... b63` (R75). -/
def blockCommands (B : Block) : List Instr := B.toList.map Instr.push ++ [Instr.start]

/-- `DIGEST` (R75). -/
def digestCommands : List Instr := (List.finRange 32).map Instr.rdb

/-- `HEXDIGEST` (R75). -/
def hexDigestCommands : List Instr := (List.finRange 64).map Instr.rdh

/-- `INIT`, then `BLOCK` for the first `n` slices of `pad(m)` in order (R162). -/
def messageCommands (m : List Byte) (n : Nat) : List Instr :=
  [Instr.init] ++ (List.range n).flatMap fun t => blockCommands (blockAt (pad m) t)

/-- `HASH m` (R75). -/
def hashCommands (m : List Byte) : List Instr :=
  messageCommands m (blockCount m.length) ++ hexDigestCommands

/-- A list of commands as the host's acts, each response awaited (R162). -/
def issueAll (is : List Instr) : List HostAct := is.flatMap issue

/-- A list of commands as the acts of a host that presents each at the first chance. -/
def presentAll (is : List Instr) : List HostAct := is.flatMap presentEarly

end Sys2Proof.Machine
end

