-- ==== Sys2Proof/Machine/Assembler.lean ====
section
/-! DEFINITION. The listing form of host programs and of traces (rule R75): one command per line, mnemonic then operand, `;`
starting a comment, numbers decimal or `0x` hexadecimal. A notation only; no meaning depends on it. -/

namespace Sys2Proof.Machine

/-- An instruction as a listing or a trace writes it (R75). -/
def listing : Instr → String
  | .init => "INIT"
  | .push d => "PUSH " ++ toString d.toNat
  | .start => "START"
  | .rdb k => "RDB " ++ toString k.val
  | .rdh n => "RDH " ++ toString n.val
  | .deser j => "DESER " ++ toString j.val
  | .expand i => "EXPAND " ++ toString i.val
  | .wvinit => "WVINIT"
  | .round i => "ROUND " ++ toString i.val
  | .addback => "ADDBACK"

/-- The value of a digit in a base of 10 or 16. -/
def digitValue (base : Nat) (c : Char) : Option Nat :=
  let n := c.toNat
  let v := if 48 ≤ n ∧ n ≤ 57 then some (n - 48)
    else if 97 ≤ n ∧ n ≤ 102 then some (n - 87)
    else if 65 ≤ n ∧ n ≤ 70 then some (n - 55)
    else none
  v.filter (· < base)

/-- Digits after the value read so far. -/
def parseDigits (base : Nat) : Nat → List Char → Option Nat
  | acc, [] => some acc
  | acc, c :: cs =>
    match digitValue base c with
    | some v => parseDigits base (base * acc + v) cs
    | none => none

/-- A number, decimal or `0x` hexadecimal (R75). -/
def parseNumber : List Char → Option Nat
  | [] => none
  | '0' :: 'x' :: c :: cs => parseDigits 16 0 (c :: cs)
  | c :: cs => parseDigits 10 0 (c :: cs)

/-- The words of a line, up to its comment. -/
def lineWords : List Char → List (List Char)
  | [] => [[]]
  | ';' :: _ => [[]]
  | ' ' :: cs => [] :: lineWords cs
  | c :: cs =>
    match lineWords cs with
    | [] => [[c]]
    | w :: ws => (c :: w) :: ws

/-- The words of a line that are not empty. -/
def lineTokens (l : List Char) : List (List Char) := (lineWords l).filter fun w => !w.isEmpty

/-- All numbers of a list of words, or none. -/
def parseNumbers : List (List Char) → Option (List Nat)
  | [] => some []
  | w :: ws =>
    match parseNumber w, parseNumbers ws with
    | some n, some ns => some (n :: ns)
    | _, _ => none

/-- One line of a listing as the host's acts: a command, the `RESET` event, or a pseudo-instruction (R75). -/
def assembleLine (line : String) : Option (List HostAct) :=
  match lineTokens line.toList with
  | [] => some []
  | op :: args =>
    match String.ofList op, parseNumbers args with
    | "INIT", some [] => some (issue .init)
    | "START", some [] => some (issue .start)
    | "PUSH", some [d] => if d < 256 then some (issue (.push (BitVec.ofNat 8 d))) else none
    | "RDB", some [k] => if k < 32 then some (issue (.rdb (Fin.ofNat 32 k))) else none
    | "RDH", some [n] => if n < 64 then some (issue (.rdh (Fin.ofNat 64 n))) else none
    | "RESET", some [] => some [.reset]
    | "DIGEST", some [] => some (issueAll digestCommands)
    | "HEXDIGEST", some [] => some (issueAll hexDigestCommands)
    | "BLOCK", some bs =>
      if bs.length = 64 ∧ bs.all (· < 256) then
        some (issueAll (blockCommands (blockAt (bs.map (BitVec.ofNat 8)) 0)))
      else none
    | "HASH", some bs =>
      if bs.all (· < 256) then some (issueAll (hashCommands (bs.map (BitVec.ofNat 8)))) else none
    | _, _ => none

end Sys2Proof.Machine
end

