-- ==== Sys2Proof/Safety.lean ====
section
/-! DEFINITION. What counts as a good state and a good end of a run, in the terms the statements use (rules R35, R182, R210). -/

namespace Sys2Proof.Machine

/-- Items 2 and 3 of rule R35; item 1, `0 <= CNT <= 64`, is the type of `CNT`. With them: what stands at the port is a command,
because a reserved word is refused when it is presented (R73, log entry 20). -/
abbrev State.Inv (s : State) : Prop :=
  (s.phase = .fault ↔ s.fcause ≠ none) ∧ (s.phase = .busy → s.cnt = 64 ∧ legalSeq s.seq = true) ∧
    ∀ w ∈ s.port, legalCommand w = true

/-- The act presents no reserved command word. -/
def HostAct.legal (a : HostAct) : Bool := a.word.all legalCommand

/-- All the host presents are commands (R210: a host program is "a finite list of legal commands", R212). -/
abbrev State.LegalHost (s : State) : Prop :=
  (∀ w ∈ s.port, legalCommand w = true) ∧ ∀ a ∈ s.host, a.legal = true

/-- `n` steps, stopping at the first refusal. -/
def runSteps : Nat → State → Host.Outcome State Fault Refusal
  | 0, s => .next s
  | n + 1, s =>
    match step s with
    | .next t => runSteps n t
    | .fault r => .fault r
    | .refused r => .refused r

/-- How many commands of the host are to be answered from here: those it will present, the one at the port, and the `START`
of the block in `BUSY`. -/
def State.commandsToAnswer (s : State) : Nat :=
  (s.host.filterMap HostAct.word).length + s.port.toList.length + if s.phase = .busy then 1 else 0

/-- The run of `n` steps from `s` to `t` is complete: the host has done all its acts, and every command has received its
response (R210). A command that a reset dropped, or that came in `FAULT`, has received none. -/
structure RunComplete (s : State) (n : Nat) (t : State) : Prop where
  run : runSteps n s = .next t
  acts : t.host = []
  answered : t.responses.length = s.responses.length + s.commandsToAnswer

/-- The run has ended well: it is complete, `PHASE = IDLE`, and it has never reached `PHASE = FAULT` (R210). -/
structure RunEndedWell (s : State) (n : Nat) (t : State) : Prop extends RunComplete s n t where
  idle : t.phase = .idle
  noFault : ∀ (k : Nat) (u : State), k ≤ n → runSteps k s = .next u → u.phase ≠ .fault

/-- The results of a run: the responses given in it, and the final `H` (R210). -/
def runResults (s t : State) : List Response × HashWords := (t.responses.drop s.responses.length, t.hash)

/-- The machine of two states is the same wherever the spec gives a value: they may differ in the storage the spec calls
unspecified in `IDLE` and `FAULT` (R21, R24, R31, U3), `SEQ`, `a..h`, `W` and `BUF[p]` for `p >= CNT`, and in the number of
the next free value. -/
structure State.SameSpecified (s t : State) : Prop where
  hash : s.hash = t.hash
  cnt : s.cnt = t.cnt
  phase : s.phase = t.phase
  fcause : s.fcause = t.fcause
  port : s.port = t.port
  responses : s.responses = t.responses
  host : s.host = t.host
  buf : ∀ p : Fin 64, p.val < s.cnt.val → s.buf[p] = t.buf[p]

/-- The next state of an outcome that has one. -/
def nextOf : Host.Outcome State Fault Refusal → Option State
  | .next s => some s
  | .fault _ => none
  | .refused _ => none

end Sys2Proof.Machine
end

