-- ==== Sys2Proof/Certificates/Slice0/Obligations.lean ====
section
/-! DEFINITION. The statements for the provers. Each docstring names the rules it formalises. An equation
`t = { s with f := t.f, ... }` says that every field it does not name is unchanged. That the host's acts stand in the list
`host`, one a step, and the responses in the list `responses`, is how the model shows the host, in every statement that
names `host`, `port` or `responses` (log entries 1, 2 and 16). -/

open Sys2Proof Sys2Proof.Machine

/-! ### Encoding -/

/-- Decoding the word of a well-formed instruction gives the instruction, at every value of its operand
(`30_encoding.md`). -/
def Obligations.DecodeOfEncodeIsTheInstruction : Prop :=
  ∀ i : Instr, i.wf = true → decode (encode i) = .ok i

/-- A word that decodes has one meaning: it is the encoding of what it decodes to, which is well-formed
(`30_encoding.md`). -/
def Obligations.DecodedWordIsTheEncodingOfItsInstruction : Prop :=
  ∀ (c : CodeWord) (i : Instr), decode c = .ok i → i.wf = true ∧ encode i = c

/-- R71, every row of the opcode map of format C by its mask and match, with the operand read from the low bits, and the
number of legal words. -/
def Obligations.CommandRowsByMaskAndMatch : Prop :=
  (∀ w : CommandWord,
    (decodeCommand w = .ok .init ↔ w &&& 0x7FF#11 = 0x000#11) ∧
    (∀ d : Byte, decodeCommand w = .ok (.push d) ↔ w &&& 0x700#11 = 0x100#11 ∧ w.toNat % 256 = d.toNat) ∧
    (decodeCommand w = .ok .start ↔ w &&& 0x7FF#11 = 0x200#11) ∧
    (∀ k : Fin 32, decodeCommand w = .ok (.rdb k) ↔ w &&& 0x7E0#11 = 0x300#11 ∧ w.toNat % 32 = k.val) ∧
    (∀ n : Fin 64, decodeCommand w = .ok (.rdh n) ↔ w &&& 0x7C0#11 = 0x400#11 ∧ w.toNat % 64 = n.val)) ∧
  (List.range 2048).countP (fun n => legalCommand (BitVec.ofNat 11 n)) = 354

/-- Which command words are reserved, how many, and that the machine refuses one, in any phase (rule R73, R212, list U1): no
step in which the host presents a reserved word, or one stands at the port, has a next state, so there is no response and
no state change. The point of refusal is the model's choice, log entry 20: the word is refused as the host's next act, also
where a command is held at the port and the host would still wait with it, and a reset that is the next act comes first. -/
def Obligations.ReservedCommandWordsAreRefused : Prop :=
  (∀ w : CommandWord, decodeCommand w = .error (.command w) ↔
    5 ≤ w.toNat / 256 ∨
    ((w.toNat / 256 = 0 ∨ w.toNat / 256 = 2) ∧ w.toNat % 256 ≠ 0) ∨
    (w.toNat / 256 = 3 ∧ w.toNat % 256 / 32 ≠ 0) ∨
    (w.toNat / 256 = 4 ∧ w.toNat % 256 / 64 ≠ 0)) ∧
  (List.range 2048).countP (fun n => !legalCommand (BitVec.ofNat 11 n)) = 1694 ∧
  (∀ (s : State) (w : CommandWord), s.port = some w → s.host.head? ≠ some .reset → legalCommand w = false →
    step s = .refused (.reserved (.command w))) ∧
  (∀ (s : State) (w : CommandWord), s.host.head? = some (.present w) → legalCommand w = false →
    (∀ v, s.port = some v → legalCommand v = true) → step s = .refused (.reserved (.command w)))

/-- R78, every row of the micro-operation map of format U by its mask and match, with the operand read from `idx`; the
number of legal values of `SEQ`; and that the core's step in `BUSY` is the row that `SEQ` matches. -/
def Obligations.SequencerRowsByMaskAndMatch : Prop :=
  (∀ w : SeqWord,
    (∀ j : Fin 16, decodeMicro w = .ok (.deser j) ↔ w &&& 0x1F0#9 = 0x000#9 ∧ w.toNat % 16 = j.val) ∧
    (∀ i : Fin 64, decodeMicro w = .ok (.expand i) ↔
      w &&& 0x1C0#9 = 0x040#9 ∧ 16 ≤ i.val ∧ w.toNat % 64 = i.val) ∧
    (decodeMicro w = .ok .wvinit ↔ w &&& 0x1FF#9 = 0x080#9) ∧
    (∀ i : Fin 64, decodeMicro w = .ok (.round i) ↔ w &&& 0x1C0#9 = 0x0C0#9 ∧ w.toNat % 64 = i.val) ∧
    (decodeMicro w = .ok .addback ↔ w &&& 0x1FF#9 = 0x100#9)) ∧
  (List.range 512).countP (fun n => legalSeq (BitVec.ofNat 9 n)) = 130 ∧
  (∀ (s : State) (i : Instr), s.phase = .busy → s.host.head? ≠ some .reset → s.reservedWord = none →
    decodeMicro s.seq = .ok i → ∃ p h, step s = exec i { s with port := p, host := h })

/-- R80: which values of `SEQ` are reserved, how many, and that a `BUSY` machine that holds one has no step, whatever
stands at the port; the refusal names the value unless a reserved command word is presented as well (log
entry 20). -/
def Obligations.ReservedSequencerValuesAreRefused : Prop :=
  (∀ w : SeqWord, decodeMicro w = .error (.seq w) ↔
    (0x010 ≤ w.toNat ∧ w.toNat ≤ 0x04F) ∨ (0x081 ≤ w.toNat ∧ w.toNat ≤ 0x0BF) ∨ 0x101 ≤ w.toNat) ∧
  (List.range 512).countP (fun n => !legalSeq (BitVec.ofNat 9 n)) = 382 ∧
  (∀ s : State, s.phase = .busy → s.host.head? ≠ some .reset → legalSeq s.seq = false →
    (∃ r, step s = .refused (.reserved r)) ∧
    (s.reservedWord = none → step s = .refused (.reserved (.seq s.seq))))

/-- Words written out bit by bit from the tables of R71 and R78, one of each row (vectors V16). -/
def Obligations.WrittenOutWordsDecode : Prop :=
  decodeCommand 0b00000000000#11 = .ok .init ∧
  decodeCommand 0b00101100001#11 = .ok (.push 0x61#8) ∧
  decodeCommand 0b01000000000#11 = .ok .start ∧
  decodeCommand 0b01100011111#11 = .ok (.rdb 31) ∧
  decodeCommand 0b10000111111#11 = .ok (.rdh 63) ∧
  decodeMicro 0b000001111#9 = .ok (.deser 15) ∧
  decodeMicro 0b001010000#9 = .ok (.expand 16) ∧
  decodeMicro 0b010000000#9 = .ok .wvinit ∧
  decodeMicro 0b011111111#9 = .ok (.round 63) ∧
  decodeMicro 0b100000000#9 = .ok .addback

/-! ### Which agent moves -/

/-- In `IDLE` a command at the port, or presented in this very step, is accepted at once and the step is its meaning (R81,
row `IDLE`), whether the host presents a further word, awaits the response, or does nothing. That the host's acts stand in a
list, one a step, is the model's choice, log entry 1. -/
def Obligations.IdleStepRunsThePresentedCommand : Prop :=
  (∀ (s : State) (w : CommandWord) (i : Instr), s.phase = .idle → s.port = none → ∀ rest,
    s.host = .present w :: rest → decodeCommand w = .ok i → step s = exec i { s with host := rest }) ∧
  (∀ (s : State) (w : CommandWord) (i : Instr), s.phase = .idle → s.port = some w →
    (∀ a ∈ s.host.head?, a = .await ∨ ∃ v, a = .present v ∧ legalCommand v = true) → decodeCommand w = .ok i →
    step s = exec i { s with port := none }) ∧
  (∀ (s : State) (w : CommandWord) (i : Instr), s.phase = .idle → s.port = some w → ∀ rest,
    s.host = .quiet :: rest → decodeCommand w = .ok i → step s = exec i { s with port := none, host := rest })

/-- In `BUSY` the step is the micro-operation that `SEQ` names, whatever command stands at the port and whatever the
host does short of a reset; around it only the port and the host's list move: a word at the port stays, and only a word presented
in this step can come to stand there (R77, R81, row `BUSY`; log entries 1 and 2). -/
def Obligations.BusyStepRunsTheMicroOperationOfSeq : Prop :=
  ∀ (s : State) (i : Instr), s.phase = .busy → s.host.head? ≠ some .reset → s.reservedWord = none →
    decodeMicro s.seq = .ok i →
    ∃ p h, step s = exec i { s with port := p, host := h } ∧ (∀ w, s.port = some w → p = some w) ∧
      (∀ w, s.port = none → p = some w → s.host.head? = some (.present w)) ∧ h <:+ s.host

/-- An `IDLE` core to which nothing is presented keeps all its state (R193: "All state survives any length of time in
`IDLE`"), and a host that awaits a response has received all of them. That a step with no act listed repeats the state is the model's choice, log entry 7. -/
def Obligations.IdleCoreWithoutACommandKeepsItsState : Prop :=
  ∀ s : State, s.phase = .idle → s.port = none →
    (∀ a rest, a = .quiet ∨ a = .await → s.host = a :: rest → step s = .next { s with host := rest }) ∧
    (s.host = [] → step s = .next s)

/-- R207 and R81, row `BUSY`: a word at the port stays there, one presented then comes to stand there, and no response is
given but the `ACK` of `ADDBACK`, after which the phase is `IDLE`. -/
def Obligations.CommandIsHeldWhileBusy : Prop :=
  ∀ s t : State, s.phase = .busy → s.host.head? ≠ some .reset → step s = .next t →
    (∀ w, s.port = some w → t.port = some w) ∧
    (∀ w rest, s.port = none → s.host = .present w :: rest → t.port = some w ∧ t.host = rest) ∧
    ((t.phase = .busy ∧ t.responses = s.responses ∧ t.hash = s.hash ∧ t.buf = s.buf ∧ t.cnt = s.cnt) ∨
      (s.seq = 0x100#9 ∧ t.phase = .idle ∧ t.responses = s.responses ++ [.ack]))

/-- In `FAULT`, for any number of steps without a reset, no command is accepted, no response is given and nothing of the core
changes (rule R185). That the machine answers next states there is the model's choice (log entries 7 and 8), and so is that
the word at the port stays while further words pass (log entry 2). -/
def Obligations.FaultLastsUntilReset : Prop :=
  ∀ (n : Nat) (s : State), s.phase = .fault → HostAct.reset ∉ s.host → s.LegalHost →
    ∃ p h, runSteps n s = .next { s with port := p, host := h } ∧ (s.port ≠ none → p = s.port) ∧ h <:+ s.host

/-- R200: a reset, in any phase and whatever stands at the port. Of `SEQ`, `a..h`, `W` and `BUF` nothing is said: they
become unspecified. -/
def Obligations.ResetEventGivesTheResetState : Prop :=
  ∀ (s : State) (rest : List HostAct), s.host = .reset :: rest →
    ∃ t, step s = .next t ∧ t.phase = .idle ∧ t.cnt = 0 ∧ t.fcause = none ∧
      (∀ i : Fin 8, t.readHash i = IV[i]) ∧ t.port = none ∧ t.responses = s.responses ∧ t.host = rest

/-! ### Host commands -/

/-- R110: the word of `INIT`, its whole effect in `IDLE`, and that it is not accepted in `FAULT`. -/
def Obligations.InitLoadsInitialValues : Prop :=
  decodeCommand 0x000#11 = .ok .init ∧
  (∀ s : State, s.phase = .idle →
    exec .init s = .next { s with
      hash := #v[0x6a09e667#32, 0xbb67ae85#32, 0x3c6ef372#32, 0xa54ff53a#32,
                 0x510e527f#32, 0x9b05688c#32, 0x1f83d9ab#32, 0x5be0cd19#32]
      cnt := 0
      responses := s.responses ++ [.ack] }) ∧
  (∀ s t : State, s.phase = .fault → s.port = some 0x000#11 → s.host.head? ≠ some .reset → step s = .next t →
    t.phase = .fault ∧ t.hash = s.hash ∧ t.cnt = s.cnt ∧ t.responses = s.responses)

/-- R111: the words of `PUSH d`, the byte it stores where `CNT` says and every other byte unchanged, and the fault with 64
bytes pushed. -/
def Obligations.PushStoresOneByteOrOverruns : Prop :=
  (∀ d : Byte, decodeCommand (BitVec.ofNat 11 (0x100 + d.toNat)) = .ok (.push d)) ∧
  (∀ (d : Byte) (s : State) (p : Fin 64), s.phase = .idle → s.cnt.val = p.val →
    ∃ t, exec (.push d) s = .next t ∧ pushIndex s.cnt = some p ∧
      t.readBuf p = d ∧ (∀ q : Fin 64, q ≠ p → t.readBuf q = s.readBuf q) ∧
      t.cnt.val = s.cnt.val + 1 ∧ t.responses = s.responses ++ [.ack] ∧
      t = { s with buf := t.buf, cnt := t.cnt, responses := t.responses }) ∧
  (∀ (d : Byte) (s : State), s.phase = .idle → s.cnt = 64 →
    exec (.push d) s = .next { s with
      fcause := some .overrun, phase := .fault, responses := s.responses ++ [.fault .overrun] })

/-- The word of `START`, the accepted `START`, and the fault with fewer than 64 bytes pushed (`41_host_commands.md`,
`60_exceptions.md`). -/
def Obligations.StartBeginsABlockOrUnderruns : Prop :=
  decodeCommand 0x200#11 = .ok .start ∧
  (∀ s : State, s.phase = .idle → s.cnt = 64 →
    exec .start s = .next { s with phase := .busy, seq := 0x000#9 }) ∧
  (∀ s : State, s.phase = .idle → s.cnt ≠ 64 →
    exec .start s = .next { s with
      fcause := some .underrun, phase := .fault, responses := s.responses ++ [.fault .underrun] })

/-- R150: the words of `RDB k` and its response, `(H[k div 4] >> (8 * (3 - k mod 4))) and 0xFF`; no state changes. -/
def Obligations.RdbAnswersDigestByte : Prop :=
  ∀ k : Fin 32, decodeCommand (BitVec.ofNat 11 (0x300 + k.val)) = .ok (.rdb k) ∧
    ∀ s : State, s.phase = .idle →
      ∃ (j : Fin 8) (v : Byte), j.val = k.val / 4 ∧
        v.toNat = (s.readHash j).toNat / 2 ^ (8 * (3 - k.val % 4)) % 256 ∧
        exec (.rdb k) s = .next { s with responses := s.responses ++ [.data v] }

/-- R151: the words of `RDH n` and its response, the character code of the nibble
`(H[n div 8] >> (4 * (7 - n mod 8))) and 0xF`; no state changes. -/
def Obligations.RdhAnswersDigestCharacter : Prop :=
  ∀ n : Fin 64, decodeCommand (BitVec.ofNat 11 (0x400 + n.val)) = .ok (.rdh n) ∧
    ∀ s : State, s.phase = .idle →
      ∃ (j : Fin 8) (x : BitVec 4), j.val = n.val / 8 ∧
        x.toNat = (s.readHash j).toNat / 2 ^ (4 * (7 - n.val % 8)) % 16 ∧
        exec (.rdh n) s = .next { s with responses := s.responses ++ [.data (hexchar x)] }

/-! ### Micro-operations -/

/-- R120: the values of `SEQ` of `DESER j`, the word it assembles, the first byte the most significant, and `next`. -/
def Obligations.DeserFormsInputWord : Prop :=
  ∀ j : Fin 16, decodeMicro (BitVec.ofNat 9 j.val) = .ok (.deser j) ∧
    ∀ s : State, s.phase = .busy → s.seq = BitVec.ofNat 9 j.val →
      ∃ t, exec (.deser j) s = .next t ∧
        (∀ p : Fin 64, p.val = j.val → (t.readSched p).toNat =
          (s.readBuf (Fin.ofNat 64 (4 * j.val))).toNat * 2 ^ 24 +
          (s.readBuf (Fin.ofNat 64 (4 * j.val + 1))).toNat * 2 ^ 16 +
          (s.readBuf (Fin.ofNat 64 (4 * j.val + 2))).toNat * 2 ^ 8 +
          (s.readBuf (Fin.ofNat 64 (4 * j.val + 3))).toNat) ∧
        (∀ p : Fin 64, p.val ≠ j.val → t.readSched p = s.readSched p) ∧
        t.seq = (if j.val < 15 then BitVec.ofNat 9 (j.val + 1) else 0x050#9) ∧
        t = { s with sched := t.sched, seq := t.seq }

/-- R125: the values of `SEQ` of `EXPAND i`, the word it derives modulo 2^32, and `next`. -/
def Obligations.ExpandDerivesScheduleWord : Prop :=
  ∀ i : Fin 64, 16 ≤ i.val → decodeMicro (BitVec.ofNat 9 (0x040 + i.val)) = .ok (.expand i) ∧
    ∀ s : State, s.phase = .busy → s.seq = BitVec.ofNat 9 (0x040 + i.val) →
      ∃ t, exec (.expand i) s = .next t ∧
        (∀ p16 p15 p7 p2 : Fin 64, p16.val + 16 = i.val → p15.val + 15 = i.val → p7.val + 7 = i.val →
          p2.val + 2 = i.val → (t.readSched i).toNat =
            ((s.readSched p16).toNat +
              (rotr (s.readSched p15) 7 ^^^ rotr (s.readSched p15) 18 ^^^ shr (s.readSched p15) 3).toNat +
              (s.readSched p7).toNat +
              (rotr (s.readSched p2) 17 ^^^ rotr (s.readSched p2) 19 ^^^ shr (s.readSched p2) 10).toNat) % 2 ^ 32) ∧
        (∀ p : Fin 64, p ≠ i → t.readSched p = s.readSched p) ∧
        t.seq = (if i.val < 63 then BitVec.ofNat 9 (0x040 + i.val + 1) else 0x080#9) ∧
        t = { s with sched := t.sched, seq := t.seq }

/-- R136: the value of `SEQ` of `WVINIT` and its whole effect. -/
def Obligations.WvinitLoadsWorkingVariables : Prop :=
  decodeMicro 0x080#9 = .ok .wvinit ∧
  ∀ s : State, s.phase = .busy → s.seq = 0x080#9 →
    exec .wvinit s = .next { s with
      work := { a := s.readHash 0, b := s.readHash 1, c := s.readHash 2, d := s.readHash 3
                e := s.readHash 4, f := s.readHash 5, g := s.readHash 6, h := s.readHash 7 }
      seq := 0x0C0#9 }

/-- R138: the values of `SEQ` of `ROUND i`, the parallel assignment from the old values with both sums modulo 2^32, and
`next`. -/
def Obligations.RoundUpdatesWorkingVariables : Prop :=
  ∀ i : Fin 64, decodeMicro (BitVec.ofNat 9 (0x0C0 + i.val)) = .ok (.round i) ∧
    ∀ s : State, s.phase = .busy → s.seq = BitVec.ofNat 9 (0x0C0 + i.val) →
      ∃ (t : State) (t1 t2 : Nat),
        exec (.round i) s = .next t ∧
        t1 = (s.work.h.toNat +
          (rotr s.work.e 6 ^^^ rotr s.work.e 11 ^^^ rotr s.work.e 25).toNat +
          ((s.work.e &&& s.work.f) ^^^ (~~~s.work.e &&& s.work.g)).toNat +
          K[i].toNat + (s.readSched i).toNat) % 2 ^ 32 ∧
        t2 = ((rotr s.work.a 2 ^^^ rotr s.work.a 13 ^^^ rotr s.work.a 22).toNat +
          ((s.work.a &&& s.work.b) ^^^ (s.work.a &&& s.work.c) ^^^ (s.work.b &&& s.work.c)).toNat) % 2 ^ 32 ∧
        t.work.a.toNat = (t1 + t2) % 2 ^ 32 ∧ t.work.b = s.work.a ∧ t.work.c = s.work.b ∧ t.work.d = s.work.c ∧
        t.work.e.toNat = (s.work.d.toNat + t1) % 2 ^ 32 ∧ t.work.f = s.work.e ∧ t.work.g = s.work.f ∧
        t.work.h = s.work.g ∧
        t.seq = (if i.val < 63 then BitVec.ofNat 9 (0x0C0 + i.val + 1) else 0x100#9) ∧
        t = { s with work := t.work, seq := t.seq }

/-- R142: the value of `SEQ` of `ADDBACK`, the eight sums, the end of the block and the `ACK`. Of `SEQ`, `a..h`, `W` and
`BUF` nothing is said: they become unspecified (log entry 3). -/
def Obligations.AddbackEndsTheBlock : Prop :=
  decodeMicro 0x100#9 = .ok .addback ∧
  ∀ s : State, s.phase = .busy → s.seq = 0x100#9 →
    ∃ t, exec .addback s = .next t ∧
      (t.readHash 0).toNat = ((s.readHash 0).toNat + s.work.a.toNat) % 2 ^ 32 ∧
      (t.readHash 1).toNat = ((s.readHash 1).toNat + s.work.b.toNat) % 2 ^ 32 ∧
      (t.readHash 2).toNat = ((s.readHash 2).toNat + s.work.c.toNat) % 2 ^ 32 ∧
      (t.readHash 3).toNat = ((s.readHash 3).toNat + s.work.d.toNat) % 2 ^ 32 ∧
      (t.readHash 4).toNat = ((s.readHash 4).toNat + s.work.e.toNat) % 2 ^ 32 ∧
      (t.readHash 5).toNat = ((s.readHash 5).toNat + s.work.f.toNat) % 2 ^ 32 ∧
      (t.readHash 6).toNat = ((s.readHash 6).toNat + s.work.g.toNat) % 2 ^ 32 ∧
      (t.readHash 7).toNat = ((s.readHash 7).toNat + s.work.h.toNat) % 2 ^ 32 ∧
      t.cnt = 0 ∧ t.phase = .idle ∧ t.responses = s.responses ++ [.ack] ∧
      t = { s with
            hash := t.hash, cnt := t.cnt, phase := t.phase, responses := t.responses
            seq := t.seq, work := t.work, sched := t.sched, buf := t.buf, freeIdx := t.freeIdx }

/-- An `EXPAND` whose index is below 16 is refused: its value of `SEQ` is reserved (R78, R80; log entry 9). -/
def Obligations.IllFormedExpandIsRefused : Prop :=
  ∀ (i : Fin 64) (s : State), i.val < 16 →
    exec (.expand i) s = .refused (.reserved (.seq (BitVec.ofNat 9 (0x040 + i.val))))

/-! ### Faults -/

/-- Every well-formed instruction answers a next state in every state: nothing stops and nothing is refused
(`60_exceptions.md`: "no micro-operation faults", "`INIT`, `RDB`, `RDH` never fault"). That fault entry is a next state is log
entry 8; that `exec` answers in a phase too in which the spec executes no such instruction is log entry 10. -/
def Obligations.EveryWellFormedInstructionAnswersANextState : Prop :=
  ∀ (i : Instr) (s : State), i.wf = true → ∃ t, exec i s = .next t

/-- Rules R180 to R182: of all instructions exactly `START` with `CNT != 64` and `PUSH` with `CNT = 64` lead to
`FAULT`, each with its own cause and response, and nothing else of the state changed. That `exec` of a host command answers so
in `BUSY` too, where the machine holds the command (R81, R184), is the model's choice, log entry 10. -/
def Obligations.OnlyStartAndPushFault : Prop :=
  ∀ (i : Instr) (s t : State), s.phase ≠ .fault → exec i s = .next t →
    (t.phase = .fault ↔ (i = .start ∧ s.cnt ≠ 64) ∨ (∃ d, i = .push d) ∧ s.cnt = 64) ∧
    (i = .start ∧ s.cnt ≠ 64 → fcauseCode t.fcause = 1#2 ∧
      t = { s with fcause := t.fcause, phase := .fault, responses := s.responses ++ [.fault .underrun] }) ∧
    ((∃ d, i = .push d) ∧ s.cnt = 64 → fcauseCode t.fcause = 2#2 ∧
      t = { s with fcause := t.fcause, phase := .fault, responses := s.responses ++ [.fault .overrun] })

/-- R183: the fault entry of cause `c` writes `FCAUSE` and `PHASE`, gives one response, and changes nothing else; the
faulting command's own writes are not done. -/
def Obligations.FaultEntryChangesNothingElse : Prop :=
  ∀ (i : Instr) (s t : State), s.phase = .idle → exec i s = .next t → t.phase = .fault →
    ∃ c, t = { s with fcause := some c, phase := .fault, responses := s.responses ++ [.fault c] }

/-! ### Rules of the whole machine -/

/-- R20: over a step the hash state changes only by an accepted `INIT`, by `ADDBACK`, or by reset. -/
def Obligations.HashIsWrittenOnlyByInitAddbackReset : Prop :=
  ∀ s t : State, step s = .next t → t.hash ≠ s.hash →
    s.host.head? = some .reset ∨
    (s.phase = .idle ∧ (s.port = some 0x000#11 ∨ s.port = none ∧ s.host.head? = some (.present 0x000#11)) ∧
      t.hash = IV) ∨
    (s.phase = .busy ∧ s.seq = 0x100#9 ∧ t.hash = addBack s.hash s.work)

/-- R30: the transitions of `PHASE` over a step, and no other. -/
def Obligations.PhaseTransitions : Prop :=
  ∀ s t : State, step s = .next t → t.phase ≠ s.phase →
    (s.host.head? = some .reset ∧ t.phase = .idle) ∨
    (s.phase = .idle ∧ t.phase = .busy ∧ s.cnt = 64 ∧
      (s.port = some 0x200#11 ∨ s.port = none ∧ s.host.head? = some (.present 0x200#11))) ∨
    (s.phase = .busy ∧ t.phase = .idle ∧ s.seq = 0x100#9) ∨
    (s.phase = .idle ∧ t.phase = .fault ∧ ∃ w, (s.port = some w ∨ s.port = none ∧ s.host.head? = some (.present w)) ∧
      (w = 0x200#11 ∧ s.cnt ≠ 64 ∨ (∃ d, decodeCommand w = .ok (.push d)) ∧ s.cnt = 64))

/-- R26: over a step `CNT` is advanced by one by a `PUSH`, or cleared by `INIT`, `ADDBACK` or reset, or kept. -/
def Obligations.CntIsAdvancedByPushAndClearedOtherwise : Prop :=
  ∀ s t : State, step s = .next t → t.cnt ≠ s.cnt →
    (t.cnt.val = s.cnt.val + 1 ∧ s.phase = .idle ∧ ∃ w d,
      (s.port = some w ∨ s.port = none ∧ s.host.head? = some (.present w)) ∧ decodeCommand w = .ok (.push d)) ∨
    (t.cnt = 0 ∧ (s.host.head? = some .reset ∨ (s.phase = .busy ∧ s.seq = 0x100#9) ∨
      (s.phase = .idle ∧ (s.port = some 0x000#11 ∨ s.port = none ∧ s.host.head? = some (.present 0x000#11)))))

/-- R27: over a step `FCAUSE` is written only by fault entry, which happens in `IDLE` and enters `FAULT`, and by reset. -/
def Obligations.FcauseIsWrittenOnlyByFaultEntryAndReset : Prop :=
  ∀ s t : State, step s = .next t → t.fcause ≠ s.fcause →
    (s.host.head? = some .reset ∧ t.fcause = none) ∨ (s.phase = .idle ∧ t.phase = .fault ∧ t.fcause ≠ none)

/-- R76: over a step without a reset at most one response is given, and what was given before stays. -/
def Obligations.AtMostOneResponsePerStep : Prop :=
  ∀ s t : State, step s = .next t → t.responses = s.responses ∨ ∃ r, t.responses = s.responses ++ [r]

/-- The state right after reset has the values R34 states: `PHASE`, `CNT`, `FCAUSE`, `H`; nothing is presented and nothing
has been answered. -/
def Obligations.ResetStateValues : Prop :=
  phaseCode State.reset.phase = 0#2 ∧ cntCode State.reset.cnt = 0#7 ∧ fcauseCode State.reset.fcause = 0#2 ∧
  State.reset.hash = #v[0x6a09e667#32, 0xbb67ae85#32, 0x3c6ef372#32, 0xa54ff53a#32,
                        0x510e527f#32, 0x9b05688c#32, 0x1f83d9ab#32, 0x5be0cd19#32] ∧
  State.reset.port = none ∧ State.reset.responses = []

/-- The invariant holds after reset: rule R35, items 2 and 3, and that only a command stands at the port (log entry 20). -/
def Obligations.InvariantHoldsAtReset : Prop := State.reset.Inv

/-- Every step keeps the invariant: rule R35, items 2 and 3 (`10_state.md`, section 6, which marks it [derived]), and that
only a command stands at the port (log entry 20). -/
def Obligations.EveryStepKeepsTheInvariant : Prop :=
  ∀ s t : State, s.Inv → step s = .next t → t.Inv

/-- From a state of the invariant a step is refused only for a reserved command word that the host presents in it: no reserved
value of `SEQ` is reached (R80: "None is reachable"). That the machine answers a next state where no agent has anything to
do, in `IDLE` without a command and in `FAULT`, is log entry 7, and that no step stops with a fault is log entry 8. -/
def Obligations.OnlyReservedCommandWordsAreRefusedUnderTheInvariant : Prop :=
  ∀ s : State, s.Inv →
    (∃ t, step s = .next t) ∨
    (∃ w, legalCommand w = false ∧ s.host.head? = some (.present w) ∧ step s = .refused (.reserved (.command w)))

/-! ### A whole block -/

/-- R79: an accepted `START` sets `SEQ` to `DESER 0`; from there, without a reset, the core runs the 130 micro-operations in
the one order, `BUSY` before each, whatever the data and whatever commands the host presents, and is `IDLE` after the
last. -/
def Obligations.StartRunsThe130MicroOperationsInOrder : Prop :=
  microOrder.length = 130 ∧
  (∀ s : State, s.phase = .idle → s.cnt = 64 →
    ∃ t, exec .start s = .next t ∧ t.phase = .busy ∧ t.seq = 0x000#9 ∧ t.host = s.host) ∧
  ∀ s : State, s.phase = .busy → s.seq = 0x000#9 → HostAct.reset ∉ s.host → s.LegalHost →
    (∀ (k : Nat) (i : Instr), microOrder[k]? = some i →
      ∃ t, runSteps k s = .next t ∧ t.phase = .busy ∧ decodeMicro t.seq = .ok i) ∧
    ∃ t, runSteps 130 s = .next t ∧ t.phase = .idle

/-- The bytes pushed from `CNT = 0` are the bytes of `BUF`, in order, and nothing else of the core changes (`10_state.md`
section 6, item 4, marked [derived]; the host's acts as a list: log entry 1). -/
def Obligations.PushedBytesFillTheBuffer : Prop :=
  ∀ (bs : List Byte) (rest : List HostAct) (s : State), bs.length ≤ 64 → s.phase = .idle → s.port = none →
    s.cnt = 0 → s.host = presentAll (bs.map Instr.push) ++ rest →
    ∃ t, runSteps bs.length s = .next t ∧ t.cnt.val = bs.length ∧
      (∀ (p : Fin 64) (b : Byte), bs[p.val]? = some b → t.readBuf p = b) ∧
      (∀ p : Fin 64, bs.length ≤ p.val → t.readBuf p = s.readBuf p) ∧
      t.responses = s.responses ++ List.replicate bs.length .ack ∧
      t = { s with buf := t.buf, cnt := t.cnt, responses := t.responses, host := rest }

/-- The block-level summary of `START` (rule R113, which the spec marks [derived]): with 64 bytes pushed, a `START` that the host
presents to the `IDLE` core in this step, or that stands at its port, is accepted and with it 131 steps, the 130 of the core
among them, without a reset, replace `H` by `compress(H, BUF)` and answer `ACK`. -/
def Obligations.StartCompressesTheBlockIntoTheHash : Prop :=
  ∀ s : State, s.phase = .idle → s.cnt = 64 →
    (s.port = some 0x200#11 ∨ s.port = none ∧ s.host.head? = some (.present 0x200#11)) →
    HostAct.reset ∉ s.host → s.LegalHost →
    ∃ t, runSteps 131 s = .next t ∧ t.phase = .idle ∧ t.cnt = 0 ∧ t.hash = compress s.hash s.buf ∧
      t.fcause = s.fcause ∧ t.responses = s.responses ++ [.ack]

/-- No step reads an unspecified value (`10_state.md` section 6, "So no rule ever reads an unspecified value"; list U3): two
machines that agree wherever the spec gives a value, outside `BUSY`, agree there after any number of steps, and refuse
alike. -/
def Obligations.UnspecifiedStorageIsNeverObserved : Prop :=
  ∀ s t : State, s.SameSpecified t → s.phase ≠ .busy → ∀ n : Nat,
    (∀ u, runSteps n s = .next u → ∃ v, runSteps n t = .next v ∧ u.SameSpecified v) ∧
    (∀ r, runSteps n s = .refused r → runSteps n t = .refused r)

/-- From any position of the sequencer a block comes to its end, whatever commands the host presents, short of a reset: within
130 steps the phase is `IDLE` and the `START` has its `ACK`, the one response of those steps. So the hold of R207 is lifted
and no run ends in `BUSY` (R210). That a step in `BUSY` always moves the core is log entry 14. -/
def Obligations.EveryBlockComesToItsEnd : Prop :=
  ∀ s : State, s.Inv → s.phase = .busy → HostAct.reset ∉ s.host → s.LegalHost →
    ∃ (n : Nat) (t : State), 1 ≤ n ∧ n ≤ 130 ∧ runSteps n s = .next t ∧ t.phase = .idle ∧ t.cnt = 0 ∧
      t.responses = s.responses ++ [.ack] ∧
      ∀ (k : Nat) (u : State), k < n → runSteps k s = .next u → u.phase = .busy

/-- The pseudo-instruction `HASH m` computes SHA-256 (rules R155, R164, the latter marked [derived]): its commands, each
response awaited (R162), issued to an idle core with any contents, make a run that ends well (R210); its results are one
`ACK` for `INIT` and 65 for each block, then the 64 characters of `sha256_hex(m)`, and the final hash state. A host that
presents every command at the first chance is answered the same (R212). A message of `2^61` bytes or more is outside (list
U5). The numbers of steps are those of the model's list of acts, log entry 1. -/
def Obligations.HashCommandsAnswerTheMessageDigest : Prop :=
  ∀ (m : List Byte) (s : State), m.length < 2 ^ 61 → s.phase = .idle → s.port = none →
    (s.host = issueAll (hashCommands m) →
      ∃ t, RunEndedWell s (130 + 260 * blockCount m.length) t ∧
        t.responses = s.responses ++ (runResults s t).1 ∧
        runResults s t = (List.replicate (1 + 65 * blockCount m.length) .ack ++ (sha256Hex m).map Response.data,
          hashAfter m (blockCount m.length))) ∧
    (s.host = presentAll (hashCommands m) →
      ∃ t, RunEndedWell s (65 + 195 * blockCount m.length) t ∧
        t.responses = s.responses ++ (runResults s t).1 ∧
        runResults s t = (List.replicate (1 + 65 * blockCount m.length) .ack ++ (sha256Hex m).map Response.data,
          hashAfter m (blockCount m.length)))

/-! ### The functions of the datapath -/

/-- R94: bit `k` of `rotr(x, n)` is bit `(k + n) mod 32` of `x`. -/
def Obligations.RotrMovesEveryBit : Prop :=
  ∀ (x : Word) (n k : Nat), 1 ≤ n → n ≤ 31 → k < 32 → (rotr x n).getLsbD k = x.getLsbD ((k + n) % 32)

/-- R95: `shr(x, n) = floor(x / 2^n)`. -/
def Obligations.ShrIsFloorDivision : Prop :=
  ∀ (x : Word) (n : Nat), n = 3 ∨ n = 10 → (shr x n).toNat = x.toNat / 2 ^ n

/-- R100: where `e` has a 1 the result has the bit of `f`, where `e` has a 0 the bit of `g`. -/
def Obligations.ChChoosesBitByBit : Prop :=
  ∀ (e f g : Word) (k : Nat), k < 32 →
    (ch e f g).getLsbD k = if e.getLsbD k then f.getLsbD k else g.getLsbD k

/-- R101: each bit of the result is the value held by at least two of the three inputs. -/
def Obligations.MajIsTheMajorityBit : Prop :=
  ∀ (a b c : Word) (k : Nat), k < 32 →
    ((maj a b c).getLsbD k = true ↔
      2 ≤ (a.getLsbD k).toNat + (b.getLsbD k).toNat + (c.getLsbD k).toNat)

/-- R96 to R99, bit by bit: bit `k` of each sum of rotations and shifts, with zeros entering a shift at bit 31. -/
def Obligations.SigmaFunctionsBitByBit : Prop :=
  ∀ (x : Word) (k : Nat), k < 32 →
    (ssig0 x).getLsbD k =
      (x.getLsbD ((k + 7) % 32) ^^ x.getLsbD ((k + 18) % 32) ^^ (decide (k + 3 < 32) && x.getLsbD (k + 3))) ∧
    (ssig1 x).getLsbD k =
      (x.getLsbD ((k + 17) % 32) ^^ x.getLsbD ((k + 19) % 32) ^^ (decide (k + 10 < 32) && x.getLsbD (k + 10))) ∧
    (bsig0 x).getLsbD k =
      (x.getLsbD ((k + 2) % 32) ^^ x.getLsbD ((k + 13) % 32) ^^ x.getLsbD ((k + 22) % 32)) ∧
    (bsig1 x).getLsbD k =
      (x.getLsbD ((k + 6) % 32) ^^ x.getLsbD ((k + 11) % 32) ^^ x.getLsbD ((k + 25) % 32))

/-- Values of the six functions from section 3 of `95_test_vectors.md`, among them both ends of the word. -/
def Obligations.SigmaVectors : Prop :=
  ssig0 0x80000000#32 = 0x11002000#32 ∧ ssig0 0x12345678#32 = 0xe7fce6ee#32 ∧
  ssig1 0x00000001#32 = 0x0000a000#32 ∧ ssig1 0x61626380#32 = 0x7da86405#32 ∧
  bsig0 0x00000001#32 = 0x40080400#32 ∧ bsig0 0x6a09e667#32 = 0xce20b47e#32 ∧
  bsig1 0x80000000#32 = 0x02100040#32 ∧ bsig1 0x510e527f#32 = 0x3587272b#32 ∧
  ch 0x510e527f#32 0x9b05688c#32 0x1f83d9ab#32 = 0x1f85c98c#32 ∧
  maj 0x6a09e667#32 0xbb67ae85#32 0x3c6ef372#32 = 0x3a6fe667#32

/-- R121: `be32` as a number, a bijection between four bytes and a word, and what `MemRead(p, 4)` is. -/
def Obligations.BigEndianWordIsABijection : Prop :=
  (∀ b0 b1 b2 b3 : Byte, (be32 b0 b1 b2 b3).toNat =
    b0.toNat * 2 ^ 24 + b1.toNat * 2 ^ 16 + b2.toNat * 2 ^ 8 + b3.toNat) ∧
  (∀ b0 b1 b2 b3 c0 c1 c2 c3 : Byte, be32 b0 b1 b2 b3 = be32 c0 c1 c2 c3 →
    b0 = c0 ∧ b1 = c1 ∧ b2 = c2 ∧ b3 = c3) ∧
  (∀ x : Word, be32 (byteLane x 0) (byteLane x 1) (byteLane x 2) (byteLane x 3) = x) ∧
  (∀ (s : State) (p0 p1 p2 p3 : Fin 64), p1.val = p0.val + 1 → p2.val = p0.val + 2 → p3.val = p0.val + 3 →
    s.memRead p0.val 4 = be32 (s.readBuf p0) (s.readBuf p1) (s.readBuf p2) (s.readBuf p3))

/-- The schedule is the unique 64-tuple with the input words and the recurrence (rule R130, marked [derived]). -/
def Obligations.ScheduleIsTheUniqueSolution : Prop :=
  ∀ (B : Block) (w : Schedule),
    w = schedule B ↔
      (∀ (j : Fin 16) (p : Fin 64), p.val = j.val → w[p] = inputWord B j) ∧
      (∀ i p16 p15 p7 p2 : Fin 64, p16.val + 16 = i.val → p15.val + 15 = i.val → p7.val + 7 = i.val →
        p2.val + 2 = i.val → w[i] = w[p16] + ssig0 w[p15] + w[p7] + ssig1 w[p2])

/-- For fixed `k` and `w` a round is a bijection of the working variables (rule R139, marked [derived]). -/
def Obligations.RoundIsABijection : Prop :=
  ∀ k w : Word, Function.Bijective (fun v : WorkVars => compressionRound v k w)

/-- Three rounds later `(a, b, c, d)` are the last four `a`-values and `(e, f, g, h)` the last four `e`-values (rule R140,
marked [derived]). -/
def Obligations.RoundsFormAShiftRegister : Prop :=
  ∀ (w : Schedule) (v : WorkVars) (n : Nat),
    (roundsFrom w v (n + 4)).b = (roundsFrom w v (n + 3)).a ∧
    (roundsFrom w v (n + 4)).c = (roundsFrom w v (n + 2)).a ∧
    (roundsFrom w v (n + 4)).d = (roundsFrom w v (n + 1)).a ∧
    (roundsFrom w v (n + 4)).f = (roundsFrom w v (n + 3)).e ∧
    (roundsFrom w v (n + 4)).g = (roundsFrom w v (n + 2)).e ∧
    (roundsFrom w v (n + 4)).h = (roundsFrom w v (n + 1)).e

/-- `ROUND 0` of the block of "abc" after `INIT` (R147). -/
def Obligations.FirstRoundOfAbc : Prop :=
  roundT1 (workOfHash IV) K[0] 0x61626380#32 = 0x54da50e8#32 ∧
  roundT2 (workOfHash IV) = 0x08909ae5#32 ∧
  compressionRound (workOfHash IV) K[0] 0x61626380#32 =
    { a := 0x5d6aebcd#32, b := 0x6a09e667#32, c := 0xbb67ae85#32, d := 0x3c6ef372#32
      e := 0xfa2a4622#32, f := 0x510e527f#32, g := 0x9b05688c#32, h := 0x1f83d9ab#32 }

/-- `compress` on the block of "abc" from `IV` gives the digest of the source's known vector (V2). -/
def Obligations.CompressOfAbc : Prop :=
  compress IV (blockAt (pad [0x61#8, 0x62#8, 0x63#8]) 0) =
    #v[0xba7816bf#32, 0x8f01cfea#32, 0x414140de#32, 0x5dae2223#32,
       0xb00361a3#32, 0x96177a9c#32, 0xb410ff61#32, 0xf20015ad#32]

/-- The constants, whose values the spec itself marks as from general knowledge (rules R22, R23; log entry 5): `K[i]`
is the first 32 bits of the fractional part of the cube root of the `i`-th prime, `IV[i]` of its square root. With `q` the integer part, `q * 2^32 + K[i]` is the floor of `2^32 * cbrt(p)`. -/
def Obligations.RomsAreTheRootsOfThePrimes : Prop :=
  let primes : List Nat := (List.range 312).filter fun p => decide (2 ≤ p) && (List.range p).all fun d => d < 2 || p % d != 0
  primes.length = 64 ∧
  (∀ (i : Fin 64) (p : Nat), primes[i.val]? = some p → ∃ q : Fin 7,
    (q.val * 2 ^ 32 + K[i].toNat) ^ 3 ≤ p * 2 ^ 96 ∧ p * 2 ^ 96 < (q.val * 2 ^ 32 + K[i].toNat + 1) ^ 3) ∧
  (∀ (i : Fin 8) (p : Nat), primes[i.val]? = some p → ∃ q : Fin 5,
    (q.val * 2 ^ 32 + IV[i].toNat) ^ 2 ≤ p * 2 ^ 64 ∧ p * 2 ^ 64 < (q.val * 2 ^ 32 + IV[i].toNat + 1) ^ 2)

/-! ### The digest and the padded message -/

/-- The codes of the sixteen digits, in order (rule R153, which marks the codes as from general knowledge; log entry 15). -/
def Obligations.HexcharTable : Prop :=
  (List.range 16).map (fun v => (hexchar (BitVec.ofNat 4 v)).toNat) =
    [0x30, 0x31, 0x32, 0x33, 0x34, 0x35, 0x36, 0x37, 0x38, 0x39, 0x61, 0x62, 0x63, 0x64, 0x65, 0x66]

/-- The two views of a digest (rule R154, marked [derived]): characters `2k` and `2k + 1` are the high and the low digit of
byte `k`, and each view determines the hash state. -/
def Obligations.DigestViewsAgreeAndAreInjective : Prop :=
  (∀ (x : HashWords) (k : Fin 32) (hi lo : Fin 64), hi.val = 2 * k.val → lo.val = 2 * k.val + 1 →
    digestChar x hi = hexchar ((digestByte x k).extractLsb 7 4) ∧
    digestChar x lo = hexchar ((digestByte x k).extractLsb 3 0)) ∧
  (∀ x y : HashWords, digestBytes x = digestBytes y → x = y) ∧
  (∀ x y : HashWords, digestHex x = digestHex y → x = y)

/-- Every digest is 64 characters of `[0-9a-f]` (rule R164, D0's property for all inputs). -/
def Obligations.HexDigestIs64LowercaseDigits : Prop :=
  ∀ m : List Byte, (sha256Hex m).length = 64 ∧
    ∀ c ∈ sha256Hex m, (0x30 ≤ c.toNat ∧ c.toNat ≤ 0x39) ∨ (0x61 ≤ c.toNat ∧ c.toNat ≤ 0x66)

/-- R161: the length of the padded message is `64 * ceil((L + 9) / 64)`, a whole number of blocks, at least
one; `N = ceil((L + 9) / 64)`. -/
def Obligations.PaddedMessageIsWholeBlocks : Prop :=
  ∀ m : List Byte, (pad m).length = 64 * ((m.length + 9 + 63) / 64) ∧
    blockCount m.length = (m.length + 9 + 63) / 64 ∧ 1 ≤ blockCount m.length ∧ (pad m).length % 64 = 0

/-- R160: `pad(m)` is `m`, one byte `0x80`, the zero bytes that make the length so far congruent to 56 modulo 64 (fewer than
64 of them), and the bit length modulo 2^64 in eight bytes, the most significant first. -/
def Obligations.PaddingAppendsMarkerZerosAndBitLength : Prop :=
  ∀ m : List Byte, ∃ (z : Nat) (len : List Byte),
    pad m = m ++ [0x80#8] ++ List.replicate z 0x00#8 ++ len ∧
    z < 64 ∧ (m.length + 1 + z) % 64 = 56 ∧
    len.length = 8 ∧ len.foldl (fun acc b => 256 * acc + b.toNat) 0 = 8 * m.length % 2 ^ 64
end

