-- ==== Sys2Proof/Laws/Decode.lean ====
section
/-! SUPPORT. The rows of both formats as ranges of numbers, and the fields as remainders; what each decoder answers in these
terms. -/

namespace Sys2Proof

/-! ### Format C -/

@[simp] theorem commandArg_toNat (w : CommandWord) : (commandArg w).toNat = w.toNat % 256 := by
  simp [commandArg, BitVec.extractLsb, BitVec.extractLsb'_toNat]

theorem commandWord_toNat (op : BitVec 3) (arg : Byte) :
    (commandWord op arg).toNat = op.toNat * 256 + arg.toNat := by
  have h := arg.isLt
  rw [commandWord, BitVec.toNat_append, ← Nat.shiftLeft_add_eq_or_of_lt h, Nat.shiftLeft_eq]

/-- The rows of format C, all words tried. -/
theorem commandRows : ∀ w : CommandWord,
    (w &&& 0x7FF#11 = 0x000#11 ↔ w.toNat = 0) ∧ (w &&& 0x700#11 = 0x100#11 ↔ w.toNat / 256 = 1) ∧
    (w &&& 0x7FF#11 = 0x200#11 ↔ w.toNat = 512) ∧ (w &&& 0x7E0#11 = 0x300#11 ↔ w.toNat / 32 = 24) ∧
    (w &&& 0x7C0#11 = 0x400#11 ↔ w.toNat / 64 = 16) := by decide +kernel

theorem initRow_iff (w : CommandWord) : w &&& 0x7FF#11 = 0x000#11 ↔ w.toNat = 0 := (commandRows w).1

theorem pushRow_iff (w : CommandWord) : w &&& 0x700#11 = 0x100#11 ↔ w.toNat / 256 = 1 := (commandRows w).2.1

theorem startRow_iff (w : CommandWord) : w &&& 0x7FF#11 = 0x200#11 ↔ w.toNat = 512 := (commandRows w).2.2.1

theorem rdbRow_iff (w : CommandWord) : w &&& 0x7E0#11 = 0x300#11 ↔ w.toNat / 32 = 24 := (commandRows w).2.2.2.1

theorem rdhRow_iff (w : CommandWord) : w &&& 0x7C0#11 = 0x400#11 ↔ w.toNat / 64 = 16 := (commandRows w).2.2.2.2

/-- `decodeCommand`, its rows as ranges of numbers. -/
theorem decodeCommand_eq (w : CommandWord) : decodeCommand w =
    if w.toNat = 0 then .ok .init
    else if w.toNat / 256 = 1 then .ok (.push (commandArg w))
    else if w.toNat = 512 then .ok .start
    else if w.toNat / 32 = 24 then .ok (.rdb (Fin.ofNat 32 (w.toNat % 256)))
    else if w.toNat / 64 = 16 then .ok (.rdh (Fin.ofNat 64 (w.toNat % 256)))
    else .error (.command w) := by
  simp only [decodeCommand, initRow_iff, pushRow_iff, startRow_iff, rdbRow_iff, rdhRow_iff, commandArg_toNat]

/-! ### Format U -/

@[simp] theorem seqIdx_toNat (w : SeqWord) : (seqIdx w).toNat = w.toNat % 64 := by
  simp [seqIdx, BitVec.extractLsb, BitVec.extractLsb'_toNat]

theorem seqWord_toNat (ph : BitVec 3) (idx : BitVec 6) :
    (seqWord ph idx).toNat = ph.toNat * 64 + idx.toNat := by
  have h := idx.isLt
  rw [seqWord, BitVec.toNat_append, ← Nat.shiftLeft_add_eq_or_of_lt h, Nat.shiftLeft_eq]

/-- The rows of format U, all words tried. -/
theorem seqRows : ∀ w : SeqWord,
    (w &&& 0x1F0#9 = 0x000#9 ↔ w.toNat < 16) ∧ (w &&& 0x1C0#9 = 0x040#9 ↔ w.toNat / 64 = 1) ∧
    (w &&& 0x1FF#9 = 0x080#9 ↔ w.toNat = 128) ∧ (w &&& 0x1C0#9 = 0x0C0#9 ↔ w.toNat / 64 = 3) ∧
    (w &&& 0x1FF#9 = 0x100#9 ↔ w.toNat = 256) := by decide +kernel

theorem deserRow_iff (w : SeqWord) : w &&& 0x1F0#9 = 0x000#9 ↔ w.toNat < 16 := (seqRows w).1

theorem expandRow_iff (w : SeqWord) : w &&& 0x1C0#9 = 0x040#9 ↔ w.toNat / 64 = 1 := (seqRows w).2.1

theorem wvinitRow_iff (w : SeqWord) : w &&& 0x1FF#9 = 0x080#9 ↔ w.toNat = 128 := (seqRows w).2.2.1

theorem roundRow_iff (w : SeqWord) : w &&& 0x1C0#9 = 0x0C0#9 ↔ w.toNat / 64 = 3 := (seqRows w).2.2.2.1

theorem addbackRow_iff (w : SeqWord) : w &&& 0x1FF#9 = 0x100#9 ↔ w.toNat = 256 := (seqRows w).2.2.2.2

/-- `decodeMicro`, its rows as ranges of numbers. -/
theorem decodeMicro_eq (w : SeqWord) : decodeMicro w =
    if w.toNat < 16 then .ok (.deser (Fin.ofNat 16 (w.toNat % 64)))
    else if w.toNat / 64 = 1 ∧ 16 ≤ w.toNat % 64 then .ok (.expand (Fin.ofNat 64 (w.toNat % 64)))
    else if w.toNat = 128 then .ok .wvinit
    else if w.toNat / 64 = 3 then .ok (.round (Fin.ofNat 64 (w.toNat % 64)))
    else if w.toNat = 256 then .ok .addback
    else .error (.seq w) := by
  simp only [decodeMicro, deserRow_iff, expandRow_iff, wvinitRow_iff, roundRow_iff, addbackRow_iff, seqIdx_toNat]

/-! ### The values of `SEQ` -/

@[simp] theorem decodeMicro_seqDeser (j : Fin 16) : decodeMicro (seqDeser j) = .ok (.deser j) := by
  have hv : (seqDeser j).toNat = j.val := by
    simp only [seqDeser, seqWord_toNat, BitVec.toNat_ofNat]
    omega
  have hj : Fin.ofNat 16 (j.val % 64) = j := Fin.ext (by simp only [Fin.ofNat]; omega)
  rw [decodeMicro_eq, hv, if_pos j.isLt, hj]

theorem decodeMicro_seqExpand (i : Fin 64) (h : 16 ≤ i.val) : decodeMicro (seqExpand i) = .ok (.expand i) := by
  have hv : (seqExpand i).toNat = 64 + i.val := by
    simp only [seqExpand, seqWord_toNat, BitVec.toNat_ofNat]
    omega
  have hi : Fin.ofNat 64 ((64 + i.val) % 64) = i := Fin.ext (by simp only [Fin.ofNat]; omega)
  rw [decodeMicro_eq, hv, if_neg (by omega), if_pos (by omega), hi]

@[simp] theorem decodeMicro_seqWvinit : decodeMicro seqWvinit = .ok .wvinit := by decide

@[simp] theorem decodeMicro_seqRound (i : Fin 64) : decodeMicro (seqRound i) = .ok (.round i) := by
  have hv : (seqRound i).toNat = 192 + i.val := by
    simp only [seqRound, seqWord_toNat, BitVec.toNat_ofNat]
    omega
  have hi : Fin.ofNat 64 ((192 + i.val) % 64) = i := Fin.ext (by simp only [Fin.ofNat]; omega)
  rw [decodeMicro_eq, hv, if_neg (by omega), if_neg (by omega), if_neg (by omega), if_pos (by omega), hi]

@[simp] theorem decodeMicro_seqAddback : decodeMicro seqAddback = .ok .addback := by decide

/-- What a legal value of `SEQ` can be (R78). -/
theorem decodeMicro_cases {w : SeqWord} {i : Instr} (h : decodeMicro w = .ok i) :
    (∃ j, i = .deser j ∧ w = seqDeser j) ∨ (∃ k : Fin 64, 16 ≤ k.val ∧ i = .expand k ∧ w = seqExpand k) ∨
    (i = .wvinit ∧ w = seqWvinit) ∨ (∃ k, i = .round k ∧ w = seqRound k) ∨ (i = .addback ∧ w = seqAddback) := by
  rw [decodeMicro_eq] at h
  have hw := w.isLt
  have eqn : ∀ x : SeqWord, w.toNat = x.toNat → w = x := fun x e => BitVec.eq_of_toNat_eq e
  split at h
  · cases h
    refine .inl ⟨_, rfl, eqn _ ?_⟩
    simp only [seqDeser, seqWord_toNat, BitVec.toNat_ofNat, Fin.ofNat]
    omega
  split at h
  · cases h
    refine .inr (.inl ⟨_, ?_, rfl, eqn _ ?_⟩)
    · simp only [Fin.ofNat]
      omega
    · simp only [seqExpand, seqWord_toNat, BitVec.toNat_ofNat, Fin.ofNat]
      omega
  split at h
  · cases h
    exact .inr (.inr (.inl ⟨rfl, eqn _ ‹_›⟩))
  split at h
  · cases h
    refine .inr (.inr (.inr (.inl ⟨_, rfl, eqn _ ?_⟩)))
    simp only [seqRound, seqWord_toNat, BitVec.toNat_ofNat, Fin.ofNat]
    omega
  split at h
  · cases h
    exact .inr (.inr (.inr (.inr ⟨rfl, eqn _ ‹_›⟩)))
  · cases h

/-- What a legal command word can be (R71). -/
theorem decodeCommand_cases {w : CommandWord} {i : Instr} (h : decodeCommand w = .ok i) :
    (i = .init ∧ w = 0x000#11) ∨ (∃ d, i = .push d ∧ w = commandWord 1#3 d) ∨ (i = .start ∧ w = 0x200#11) ∨
    (∃ k : Fin 32, i = .rdb k ∧ w = commandWord 3#3 (BitVec.ofNat 8 k.val)) ∨
    (∃ n : Fin 64, i = .rdh n ∧ w = commandWord 4#3 (BitVec.ofNat 8 n.val)) := by
  rw [decodeCommand_eq] at h
  have hw := w.isLt
  have eqn : ∀ x : CommandWord, w.toNat = x.toNat → w = x := fun x e => BitVec.eq_of_toNat_eq e
  split at h
  · cases h
    exact .inl ⟨rfl, eqn _ ‹_›⟩
  split at h
  · cases h
    refine .inr (.inl ⟨_, rfl, eqn _ ?_⟩)
    simp only [commandWord_toNat, commandArg_toNat, BitVec.toNat_ofNat]
    omega
  split at h
  · cases h
    exact .inr (.inr (.inl ⟨rfl, eqn _ ‹_›⟩))
  split at h
  · cases h
    refine .inr (.inr (.inr (.inl ⟨_, rfl, eqn _ ?_⟩)))
    simp only [commandWord_toNat, BitVec.toNat_ofNat, Fin.ofNat]
    omega
  split at h
  · cases h
    refine .inr (.inr (.inr (.inr ⟨_, rfl, eqn _ ?_⟩)))
    simp only [commandWord_toNat, BitVec.toNat_ofNat, Fin.ofNat]
    omega
  · cases h

end Sys2Proof
end

