-- ==== Sys2Proof/Laws/State.lean ====
section
/-! SUPPORT. One lemma per field per update of the state, so that no proof unfolds a record update. -/

namespace Sys2Proof.Machine

variable (s : State)

@[simp] theorem State.writeHash_hash (x : HashWords) : (s.writeHash x).hash = x := rfl
@[simp] theorem State.writeHash_work (x : HashWords) : (s.writeHash x).work = s.work := rfl
@[simp] theorem State.writeHash_sched (x : HashWords) : (s.writeHash x).sched = s.sched := rfl
@[simp] theorem State.writeHash_buf (x : HashWords) : (s.writeHash x).buf = s.buf := rfl
@[simp] theorem State.writeHash_cnt (x : HashWords) : (s.writeHash x).cnt = s.cnt := rfl
@[simp] theorem State.writeHash_phase (x : HashWords) : (s.writeHash x).phase = s.phase := rfl
@[simp] theorem State.writeHash_seq (x : HashWords) : (s.writeHash x).seq = s.seq := rfl
@[simp] theorem State.writeHash_fcause (x : HashWords) : (s.writeHash x).fcause = s.fcause := rfl
@[simp] theorem State.writeHash_port (x : HashWords) : (s.writeHash x).port = s.port := rfl
@[simp] theorem State.writeHash_responses (x : HashWords) : (s.writeHash x).responses = s.responses := rfl
@[simp] theorem State.writeHash_host (x : HashWords) : (s.writeHash x).host = s.host := rfl
@[simp] theorem State.writeHash_freeIdx (x : HashWords) : (s.writeHash x).freeIdx = s.freeIdx := rfl

@[simp] theorem State.writeSched_hash (i : Fin 64) (x : Word) : (s.writeSched i x).hash = s.hash := rfl
@[simp] theorem State.writeSched_work (i : Fin 64) (x : Word) : (s.writeSched i x).work = s.work := rfl
@[simp] theorem State.writeSched_sched (i : Fin 64) (x : Word) : (s.writeSched i x).sched = s.sched.set i.val x := rfl
@[simp] theorem State.writeSched_buf (i : Fin 64) (x : Word) : (s.writeSched i x).buf = s.buf := rfl
@[simp] theorem State.writeSched_cnt (i : Fin 64) (x : Word) : (s.writeSched i x).cnt = s.cnt := rfl
@[simp] theorem State.writeSched_phase (i : Fin 64) (x : Word) : (s.writeSched i x).phase = s.phase := rfl
@[simp] theorem State.writeSched_seq (i : Fin 64) (x : Word) : (s.writeSched i x).seq = s.seq := rfl
@[simp] theorem State.writeSched_fcause (i : Fin 64) (x : Word) : (s.writeSched i x).fcause = s.fcause := rfl
@[simp] theorem State.writeSched_port (i : Fin 64) (x : Word) : (s.writeSched i x).port = s.port := rfl
@[simp] theorem State.writeSched_responses (i : Fin 64) (x : Word) : (s.writeSched i x).responses = s.responses := rfl
@[simp] theorem State.writeSched_host (i : Fin 64) (x : Word) : (s.writeSched i x).host = s.host := rfl
@[simp] theorem State.writeSched_freeIdx (i : Fin 64) (x : Word) : (s.writeSched i x).freeIdx = s.freeIdx := rfl

@[simp] theorem State.writeWork_hash (v : WorkVars) : (s.writeWork v).hash = s.hash := rfl
@[simp] theorem State.writeWork_work (v : WorkVars) : (s.writeWork v).work = v := rfl
@[simp] theorem State.writeWork_sched (v : WorkVars) : (s.writeWork v).sched = s.sched := rfl
@[simp] theorem State.writeWork_buf (v : WorkVars) : (s.writeWork v).buf = s.buf := rfl
@[simp] theorem State.writeWork_cnt (v : WorkVars) : (s.writeWork v).cnt = s.cnt := rfl
@[simp] theorem State.writeWork_phase (v : WorkVars) : (s.writeWork v).phase = s.phase := rfl
@[simp] theorem State.writeWork_seq (v : WorkVars) : (s.writeWork v).seq = s.seq := rfl
@[simp] theorem State.writeWork_fcause (v : WorkVars) : (s.writeWork v).fcause = s.fcause := rfl
@[simp] theorem State.writeWork_port (v : WorkVars) : (s.writeWork v).port = s.port := rfl
@[simp] theorem State.writeWork_responses (v : WorkVars) : (s.writeWork v).responses = s.responses := rfl
@[simp] theorem State.writeWork_host (v : WorkVars) : (s.writeWork v).host = s.host := rfl
@[simp] theorem State.writeWork_freeIdx (v : WorkVars) : (s.writeWork v).freeIdx = s.freeIdx := rfl

@[simp] theorem State.memWrite_hash (p : Fin 64) (v : Byte) : (s.memWrite p v).hash = s.hash := rfl
@[simp] theorem State.memWrite_work (p : Fin 64) (v : Byte) : (s.memWrite p v).work = s.work := rfl
@[simp] theorem State.memWrite_sched (p : Fin 64) (v : Byte) : (s.memWrite p v).sched = s.sched := rfl
@[simp] theorem State.memWrite_buf (p : Fin 64) (v : Byte) : (s.memWrite p v).buf = s.buf.set p.val v := rfl
@[simp] theorem State.memWrite_cnt (p : Fin 64) (v : Byte) : (s.memWrite p v).cnt = s.cnt := rfl
@[simp] theorem State.memWrite_phase (p : Fin 64) (v : Byte) : (s.memWrite p v).phase = s.phase := rfl
@[simp] theorem State.memWrite_seq (p : Fin 64) (v : Byte) : (s.memWrite p v).seq = s.seq := rfl
@[simp] theorem State.memWrite_fcause (p : Fin 64) (v : Byte) : (s.memWrite p v).fcause = s.fcause := rfl
@[simp] theorem State.memWrite_port (p : Fin 64) (v : Byte) : (s.memWrite p v).port = s.port := rfl
@[simp] theorem State.memWrite_responses (p : Fin 64) (v : Byte) : (s.memWrite p v).responses = s.responses := rfl
@[simp] theorem State.memWrite_host (p : Fin 64) (v : Byte) : (s.memWrite p v).host = s.host := rfl
@[simp] theorem State.memWrite_freeIdx (p : Fin 64) (v : Byte) : (s.memWrite p v).freeIdx = s.freeIdx := rfl

@[simp] theorem State.writeCnt_hash (c : Fin 65) : (s.writeCnt c).hash = s.hash := rfl
@[simp] theorem State.writeCnt_work (c : Fin 65) : (s.writeCnt c).work = s.work := rfl
@[simp] theorem State.writeCnt_sched (c : Fin 65) : (s.writeCnt c).sched = s.sched := rfl
@[simp] theorem State.writeCnt_buf (c : Fin 65) : (s.writeCnt c).buf = s.buf := rfl
@[simp] theorem State.writeCnt_cnt (c : Fin 65) : (s.writeCnt c).cnt = c := rfl
@[simp] theorem State.writeCnt_phase (c : Fin 65) : (s.writeCnt c).phase = s.phase := rfl
@[simp] theorem State.writeCnt_seq (c : Fin 65) : (s.writeCnt c).seq = s.seq := rfl
@[simp] theorem State.writeCnt_fcause (c : Fin 65) : (s.writeCnt c).fcause = s.fcause := rfl
@[simp] theorem State.writeCnt_port (c : Fin 65) : (s.writeCnt c).port = s.port := rfl
@[simp] theorem State.writeCnt_responses (c : Fin 65) : (s.writeCnt c).responses = s.responses := rfl
@[simp] theorem State.writeCnt_host (c : Fin 65) : (s.writeCnt c).host = s.host := rfl
@[simp] theorem State.writeCnt_freeIdx (c : Fin 65) : (s.writeCnt c).freeIdx = s.freeIdx := rfl

@[simp] theorem State.writeSeq_hash (w : SeqWord) : (s.writeSeq w).hash = s.hash := rfl
@[simp] theorem State.writeSeq_work (w : SeqWord) : (s.writeSeq w).work = s.work := rfl
@[simp] theorem State.writeSeq_sched (w : SeqWord) : (s.writeSeq w).sched = s.sched := rfl
@[simp] theorem State.writeSeq_buf (w : SeqWord) : (s.writeSeq w).buf = s.buf := rfl
@[simp] theorem State.writeSeq_cnt (w : SeqWord) : (s.writeSeq w).cnt = s.cnt := rfl
@[simp] theorem State.writeSeq_phase (w : SeqWord) : (s.writeSeq w).phase = s.phase := rfl
@[simp] theorem State.writeSeq_seq (w : SeqWord) : (s.writeSeq w).seq = w := rfl
@[simp] theorem State.writeSeq_fcause (w : SeqWord) : (s.writeSeq w).fcause = s.fcause := rfl
@[simp] theorem State.writeSeq_port (w : SeqWord) : (s.writeSeq w).port = s.port := rfl
@[simp] theorem State.writeSeq_responses (w : SeqWord) : (s.writeSeq w).responses = s.responses := rfl
@[simp] theorem State.writeSeq_host (w : SeqWord) : (s.writeSeq w).host = s.host := rfl
@[simp] theorem State.writeSeq_freeIdx (w : SeqWord) : (s.writeSeq w).freeIdx = s.freeIdx := rfl

@[simp] theorem State.writePhase_hash (p : Phase) : (s.writePhase p).hash = s.hash := rfl
@[simp] theorem State.writePhase_work (p : Phase) : (s.writePhase p).work = s.work := rfl
@[simp] theorem State.writePhase_sched (p : Phase) : (s.writePhase p).sched = s.sched := rfl
@[simp] theorem State.writePhase_buf (p : Phase) : (s.writePhase p).buf = s.buf := rfl
@[simp] theorem State.writePhase_cnt (p : Phase) : (s.writePhase p).cnt = s.cnt := rfl
@[simp] theorem State.writePhase_phase (p : Phase) : (s.writePhase p).phase = p := rfl
@[simp] theorem State.writePhase_seq (p : Phase) : (s.writePhase p).seq = s.seq := rfl
@[simp] theorem State.writePhase_fcause (p : Phase) : (s.writePhase p).fcause = s.fcause := rfl
@[simp] theorem State.writePhase_port (p : Phase) : (s.writePhase p).port = s.port := rfl
@[simp] theorem State.writePhase_responses (p : Phase) : (s.writePhase p).responses = s.responses := rfl
@[simp] theorem State.writePhase_host (p : Phase) : (s.writePhase p).host = s.host := rfl
@[simp] theorem State.writePhase_freeIdx (p : Phase) : (s.writePhase p).freeIdx = s.freeIdx := rfl

@[simp] theorem State.respond_hash (r : Response) : (s.respond r).hash = s.hash := rfl
@[simp] theorem State.respond_work (r : Response) : (s.respond r).work = s.work := rfl
@[simp] theorem State.respond_sched (r : Response) : (s.respond r).sched = s.sched := rfl
@[simp] theorem State.respond_buf (r : Response) : (s.respond r).buf = s.buf := rfl
@[simp] theorem State.respond_cnt (r : Response) : (s.respond r).cnt = s.cnt := rfl
@[simp] theorem State.respond_phase (r : Response) : (s.respond r).phase = s.phase := rfl
@[simp] theorem State.respond_seq (r : Response) : (s.respond r).seq = s.seq := rfl
@[simp] theorem State.respond_fcause (r : Response) : (s.respond r).fcause = s.fcause := rfl
@[simp] theorem State.respond_port (r : Response) : (s.respond r).port = s.port := rfl
@[simp] theorem State.respond_responses (r : Response) : (s.respond r).responses = s.responses ++ [r] := rfl
@[simp] theorem State.respond_host (r : Response) : (s.respond r).host = s.host := rfl
@[simp] theorem State.respond_freeIdx (r : Response) : (s.respond r).freeIdx = s.freeIdx := rfl

@[simp] theorem State.raise_hash (c : BlockFault) : (s.raise c).hash = s.hash := rfl
@[simp] theorem State.raise_work (c : BlockFault) : (s.raise c).work = s.work := rfl
@[simp] theorem State.raise_sched (c : BlockFault) : (s.raise c).sched = s.sched := rfl
@[simp] theorem State.raise_buf (c : BlockFault) : (s.raise c).buf = s.buf := rfl
@[simp] theorem State.raise_cnt (c : BlockFault) : (s.raise c).cnt = s.cnt := rfl
@[simp] theorem State.raise_phase (c : BlockFault) : (s.raise c).phase = .fault := rfl
@[simp] theorem State.raise_seq (c : BlockFault) : (s.raise c).seq = s.seq := rfl
@[simp] theorem State.raise_fcause (c : BlockFault) : (s.raise c).fcause = some c := rfl
@[simp] theorem State.raise_port (c : BlockFault) : (s.raise c).port = s.port := rfl
@[simp] theorem State.raise_responses (c : BlockFault) : (s.raise c).responses = s.responses ++ [.fault c] := rfl
@[simp] theorem State.raise_host (c : BlockFault) : (s.raise c).host = s.host := rfl
@[simp] theorem State.raise_freeIdx (c : BlockFault) : (s.raise c).freeIdx = s.freeIdx := rfl

@[simp] theorem State.discardBlock_hash : (s.discardBlock).hash = s.hash := rfl
@[simp] theorem State.discardBlock_work : (s.discardBlock).work = freeWorkVars s.freeIdx := rfl
@[simp] theorem State.discardBlock_sched : (s.discardBlock).sched = Vector.ofFn (Config.freeSched s.freeIdx) := rfl
@[simp] theorem State.discardBlock_buf : (s.discardBlock).buf = Vector.ofFn (Config.freeBuf s.freeIdx) := rfl
@[simp] theorem State.discardBlock_cnt : (s.discardBlock).cnt = s.cnt := rfl
@[simp] theorem State.discardBlock_phase : (s.discardBlock).phase = s.phase := rfl
@[simp] theorem State.discardBlock_seq : (s.discardBlock).seq = Config.freeSeq s.freeIdx := rfl
@[simp] theorem State.discardBlock_fcause : (s.discardBlock).fcause = s.fcause := rfl
@[simp] theorem State.discardBlock_port : (s.discardBlock).port = s.port := rfl
@[simp] theorem State.discardBlock_responses : (s.discardBlock).responses = s.responses := rfl
@[simp] theorem State.discardBlock_host : (s.discardBlock).host = s.host := rfl
@[simp] theorem State.discardBlock_freeIdx : (s.discardBlock).freeIdx = s.freeIdx + 1 := rfl

@[simp] theorem State.resetEvent_hash : (s.resetEvent).hash = IV := rfl
@[simp] theorem State.resetEvent_work : (s.resetEvent).work = freeWorkVars s.freeIdx := rfl
@[simp] theorem State.resetEvent_sched : (s.resetEvent).sched = Vector.ofFn (Config.freeSched s.freeIdx) := rfl
@[simp] theorem State.resetEvent_buf : (s.resetEvent).buf = Vector.ofFn (Config.freeBuf s.freeIdx) := rfl
@[simp] theorem State.resetEvent_cnt : (s.resetEvent).cnt = 0 := rfl
@[simp] theorem State.resetEvent_phase : (s.resetEvent).phase = .idle := rfl
@[simp] theorem State.resetEvent_seq : (s.resetEvent).seq = Config.freeSeq s.freeIdx := rfl
@[simp] theorem State.resetEvent_fcause : (s.resetEvent).fcause = none := rfl
@[simp] theorem State.resetEvent_port : (s.resetEvent).port = none := rfl
@[simp] theorem State.resetEvent_responses : (s.resetEvent).responses = s.responses := rfl
@[simp] theorem State.resetEvent_host : (s.resetEvent).host = s.host := rfl
@[simp] theorem State.resetEvent_freeIdx : (s.resetEvent).freeIdx = s.freeIdx + 1 := rfl

end Sys2Proof.Machine
end

