-- ==== Sys2Proof/Laws/Ops.lean ====
section
/-! SUPPORT. What the shared operations do, said once: reads after writes, `MemRead` of one word, the indices. -/

namespace Sys2Proof.Machine

variable (s : State)

/-! ### Reads after writes -/

@[simp] theorem readSched_writeSched_self (i : Fin 64) (x : Word) : (s.writeSched i x).readSched i = x := by
  simp [State.readSched]

theorem readSched_writeSched_ne {i j : Fin 64} (x : Word) (h : j ≠ i) :
    (s.writeSched i x).readSched j = s.readSched j := by
  have : i.val ≠ j.val := fun e => h (Fin.ext e.symm)
  simp [State.readSched, this]

@[simp] theorem readBuf_memWrite_self (p : Fin 64) (v : Byte) : (s.memWrite p v).readBuf p = v := by
  simp [State.readBuf]

theorem readBuf_memWrite_ne {p q : Fin 64} (v : Byte) (h : q ≠ p) :
    (s.memWrite p v).readBuf q = s.readBuf q := by
  have : p.val ≠ q.val := fun e => h (Fin.ext e.symm)
  simp [State.readBuf, this]

/-! ### Indices -/

theorem pushIndex_of_lt {c : Fin 65} (h : c.val < 64) : pushIndex c = some ⟨c.val, h⟩ := by
  simp [pushIndex, h]

theorem pushIndex_full : pushIndex 64 = none := rfl

theorem pushIndex_eq_some {c : Fin 65} {p : Fin 64} (h : pushIndex c = some p) : c.val = p.val := by
  unfold pushIndex at h
  split at h
  · cases h; rfl
  · cases h

theorem pushIndex_eq_none {c : Fin 65} (h : pushIndex c = none) : c = 64 := by
  unfold pushIndex at h
  split at h
  · cases h
  · apply Fin.ext
    have := c.isLt
    show c.val = 64
    omega

@[simp] theorem cntAfterPush_val (p : Fin 64) : (cntAfterPush p).val = p.val + 1 := rfl

theorem blockFull_iff : s.blockFull = true ↔ s.cnt = 64 := by simp [State.blockFull]

/-! ### Memory -/

/-- `MemRead(p, 4)` is `be32` of the four bytes from `BUF[p]` on (R121). -/
theorem memRead_four (p : Nat) :
    s.memRead p 4 = be32 (s.readBuf (Fin.ofNat 64 p)) (s.readBuf (Fin.ofNat 64 (p + 1)))
      (s.readBuf (Fin.ofNat 64 (p + 2))) (s.readBuf (Fin.ofNat 64 (p + 3))) := by
  simp only [State.memRead, be32, Nat.add_zero]
  congr 3
  exact BitVec.eq_of_toNat_eq ((BitVec.toNat_append (0#0) (s.readBuf _)).trans (by simp))

theorem be32_toNat (b0 b1 b2 b3 : Byte) :
    (be32 b0 b1 b2 b3).toNat = b0.toNat * 2 ^ 24 + b1.toNat * 2 ^ 16 + b2.toNat * 2 ^ 8 + b3.toNat := by
  have h0 := b0.isLt
  have h1 := b1.isLt
  have h2 := b2.isLt
  have h3 := b3.isLt
  simp only [be32, BitVec.toNat_append]
  rw [← Nat.shiftLeft_add_eq_or_of_lt h1, ← Nat.shiftLeft_add_eq_or_of_lt h2, ← Nat.shiftLeft_add_eq_or_of_lt h3]
  simp only [Nat.shiftLeft_eq]
  omega

theorem byteLane_toNat (x : Word) (k : Fin 4) :
    (byteLane x k).toNat = x.toNat / 2 ^ (8 * (3 - k.val)) % 2 ^ 8 := by
  simp [byteLane, Nat.shiftRight_eq_div_pow]

theorem nibbleLane_toNat (x : Word) (k : Fin 8) :
    (nibbleLane x k).toNat = x.toNat / 2 ^ (4 * (7 - k.val)) % 2 ^ 4 := by
  simp [nibbleLane, Nat.shiftRight_eq_div_pow]

end Sys2Proof.Machine
end

