-- ==== Sys2Proof/Laws/Exec.lean ====
section
/-! SUPPORT. Everything an instruction can do, said once: the inversion of `exec`, and what each meaning answers. -/

namespace Sys2Proof.Machine

variable {s t : State}

theorem exec_push_of_lt (d : Byte) {p : Fin 64} (h : s.cnt.val = p.val) :
    exec (.push d) s = .next (((s.memWrite p d).writeCnt (cntAfterPush p)).respond .ack) := by
  have hp : pushIndex s.cnt = some p := by
    have hlt : s.cnt.val < 64 := h ▸ p.isLt
    rw [pushIndex_of_lt hlt]
    exact congrArg some (Fin.ext h)
  simp only [exec, execPush, hp]

theorem exec_push_of_full (d : Byte) (h : s.cnt = 64) : exec (.push d) s = .next (s.raise .overrun) := by
  simp only [exec, execPush, h, pushIndex_full]

theorem exec_start_of_full (h : s.cnt = 64) :
    exec .start s = .next ((s.writePhase .busy).writeSeq (seqDeser 0)) := by
  simp only [exec, execStart, (blockFull_iff s).mpr h, if_true]

theorem exec_start_of_not_full (h : s.cnt ≠ 64) : exec .start s = .next (s.raise .underrun) := by
  have hb : ¬ s.blockFull = true := fun e => h ((blockFull_iff s).mp e)
  simp only [exec, execStart, if_neg hb]

theorem exec_expand_of_le {i : Fin 64} (h : 16 ≤ i.val) :
    exec (.expand i) s = .next ((s.writeSched i (expandWord s.sched i)).writeSeq (nextExpand i)) := by
  simp only [exec, execExpand, if_pos h]

/-- Everything an instruction that answers a next state can have done. -/
theorem exec_cases {i : Instr} (h : exec i s = .next t) :
    (i = .init ∧ t = ((s.writeHash IV).writeCnt 0).respond .ack) ∨
    (∃ d p, i = .push d ∧ s.cnt.val = p.val ∧
      t = ((s.memWrite p d).writeCnt (cntAfterPush p)).respond .ack) ∨
    (∃ d, i = .push d ∧ s.cnt = 64 ∧ t = s.raise .overrun) ∨
    (i = .start ∧ s.cnt = 64 ∧ t = (s.writePhase .busy).writeSeq (seqDeser 0)) ∨
    (i = .start ∧ s.cnt ≠ 64 ∧ t = s.raise .underrun) ∨
    (∃ k, i = .rdb k ∧ t = s.respond (.data (digestByte s.hash k))) ∨
    (∃ n, i = .rdh n ∧ t = s.respond (.data (digestChar s.hash n))) ∨
    (∃ j, i = .deser j ∧
      t = (s.writeSched (deserTarget j) (s.memRead (deserBase j) 4)).writeSeq (nextDeser j)) ∨
    (∃ k : Fin 64, i = .expand k ∧ 16 ≤ k.val ∧
      t = (s.writeSched k (expandWord s.sched k)).writeSeq (nextExpand k)) ∨
    (i = .wvinit ∧ t = (s.writeWork (workOfHash s.hash)).writeSeq (seqRound 0)) ∨
    (∃ k, i = .round k ∧ t = (s.writeWork (compressionRound s.work K[k] (s.readSched k))).writeSeq (nextRound k)) ∨
    (i = .addback ∧
      t = ((((s.writeHash (addBack s.hash s.work)).writeCnt 0).writePhase .idle).discardBlock).respond .ack) := by
  cases i with
  | init => cases h; simp
  | push d =>
    simp only [exec, execPush] at h
    split at h
    · cases h
      exact .inr (.inl ⟨d, _, rfl, pushIndex_eq_some ‹_›, rfl⟩)
    · cases h
      exact .inr (.inr (.inl ⟨d, rfl, pushIndex_eq_none ‹_›, rfl⟩))
  | start =>
    by_cases hc : s.cnt = 64
    · rw [exec_start_of_full hc] at h
      cases h
      simp [hc]
    · rw [exec_start_of_not_full hc] at h
      cases h
      simp [hc]
  | rdb k => cases h; simp
  | rdh n => cases h; simp
  | deser j => cases h; simp
  | expand k =>
    simp only [exec, execExpand] at h
    split at h
    · cases h
      simp [‹16 ≤ k.val›]
    · cases h
  | wvinit => cases h; simp
  | round k => cases h; simp
  | addback => cases h; simp

/-- No instruction touches the port or the host's acts. -/
theorem exec_port_host {i : Instr} (h : exec i s = .next t) : t.port = s.port ∧ t.host = s.host := by
  rcases exec_cases h with ⟨-, rfl⟩ | ⟨_, _, -, -, rfl⟩ | ⟨_, -, -, rfl⟩ | ⟨-, -, rfl⟩ | ⟨-, -, rfl⟩ | ⟨_, -, rfl⟩ |
    ⟨_, -, rfl⟩ | ⟨_, -, rfl⟩ | ⟨_, -, -, rfl⟩ | ⟨-, rfl⟩ | ⟨_, -, rfl⟩ | ⟨-, rfl⟩ <;> simp

/-- The value of `SEQ` after `DESER j` is the next position (R79). -/
theorem decodeMicro_nextDeser (j : Fin 16) :
    decodeMicro (nextDeser j) = if j.val < 15 then .ok (.deser (j + 1)) else .ok (.expand 16) := by
  unfold nextDeser
  split
  · exact decodeMicro_seqDeser _
  · exact decodeMicro_seqExpand _ (by decide)

/-- The value of `SEQ` after `EXPAND i` is the next position (R79). -/
theorem decodeMicro_nextExpand (i : Fin 64) (h : 16 ≤ i.val) :
    decodeMicro (nextExpand i) = if i.val < 63 then .ok (.expand (i + 1)) else .ok .wvinit := by
  unfold nextExpand
  split
  · refine decodeMicro_seqExpand _ ?_
    have : (i + 1).val = i.val + 1 := by rw [Fin.val_add_one_of_lt' (by omega)]
    omega
  · exact decodeMicro_seqWvinit

/-- The value of `SEQ` after `ROUND i` is the next position (R79). -/
theorem decodeMicro_nextRound (i : Fin 64) :
    decodeMicro (nextRound i) = if i.val < 63 then .ok (.round (i + 1)) else .ok .addback := by
  unfold nextRound
  split
  · exact decodeMicro_seqRound _
  · exact decodeMicro_seqAddback

end Sys2Proof.Machine
end

