-- ==== Sys2Proof/Laws/Step.lean ====
section
/-! SUPPORT. Everything a step can do, said once: what the host's act changes, what each phase runs, the inversion of
`step`. -/

namespace Sys2Proof.Machine

variable (s : State)

/-! ### The host's act touches the port and the host's list only -/

/-- `hostActs` changes the port and the host's list only. -/
theorem hostActs_eq : s.hostActs = { s with port := s.hostActs.port, host := s.hostActs.host } := by
  unfold State.hostActs
  split <;> (try split) <;> rfl

@[simp] theorem hostActs_hash : s.hostActs.hash = s.hash := by rw [hostActs_eq]
@[simp] theorem hostActs_work : s.hostActs.work = s.work := by rw [hostActs_eq]
@[simp] theorem hostActs_sched : s.hostActs.sched = s.sched := by rw [hostActs_eq]
@[simp] theorem hostActs_buf : s.hostActs.buf = s.buf := by rw [hostActs_eq]
@[simp] theorem hostActs_cnt : s.hostActs.cnt = s.cnt := by rw [hostActs_eq]
@[simp] theorem hostActs_phase : s.hostActs.phase = s.phase := by rw [hostActs_eq]
@[simp] theorem hostActs_seq : s.hostActs.seq = s.seq := by rw [hostActs_eq]
@[simp] theorem hostActs_fcause : s.hostActs.fcause = s.fcause := by rw [hostActs_eq]
@[simp] theorem hostActs_responses : s.hostActs.responses = s.responses := by rw [hostActs_eq]
@[simp] theorem hostActs_freeIdx : s.hostActs.freeIdx = s.freeIdx := by rw [hostActs_eq]

/-- A word at the port stays there. -/
theorem hostActs_port_of_some {w : CommandWord} (h : s.port = some w) : s.hostActs.port = some w := by
  unfold State.hostActs
  split
  · exact h
  · exact h
  · exact h
  · split <;> exact h
  · simp only [h]
    split
    · contradiction
    · rfl
    · exact h

/-- A word that comes to the port is the one the host presents in this step. -/
theorem hostActs_port_of_none {w : CommandWord} (h : s.port = none) (hw : s.hostActs.port = some w) :
    s.host.head? = some (.present w) := by
  unfold State.hostActs at hw
  split at hw
  · rw [h] at hw; cases hw
  · rw [h] at hw; cases hw
  · rw [h] at hw; cases hw
  · split at hw <;> (rw [h] at hw; cases hw)
  · rename_i v rest hh
    simp only [h] at hw
    cases hw
    simp [hh]

/-- The host's list only gets shorter. -/
theorem hostActs_host_suffix : s.hostActs.host <:+ s.host := by
  unfold State.hostActs
  split
  · exact List.suffix_refl _
  · exact List.suffix_refl _
  · rename_i rest hh
    exact hh ▸ List.suffix_cons _ _
  · rename_i rest hh
    split
    · exact List.suffix_refl _
    · exact hh ▸ List.suffix_cons _ _
  · rename_i w rest hh
    split
    · exact hh ▸ List.suffix_cons _ _
    · exact hh ▸ List.suffix_cons _ _
    · exact List.suffix_refl _

/-! ### Reserved words -/

/-- The words held out are the one at the port and the one the next act presents. -/
theorem mem_presentedWords {w : CommandWord} :
    w ∈ s.presentedWords ↔ s.port = some w ∨ s.host.head? = some (.present w) := by
  rw [State.presentedWords, List.mem_append, Option.mem_toList, Option.mem_toList,
    Option.bind_eq_some_iff]
  refine or_congr_right ⟨?_, fun h => ⟨_, h, rfl⟩⟩
  rintro ⟨_ | v | _ | _, ha, hw⟩ <;> cases hw
  exact ha

/-- No reserved word is held out: neither the word at the port nor the one the next act presents is reserved. -/
theorem reservedWord_eq_none_iff : s.reservedWord = none ↔
    (∀ w, s.port = some w → legalCommand w = true) ∧
      ∀ w, s.host.head? = some (.present w) → legalCommand w = true := by
  simp [State.reservedWord, mem_presentedWords, or_imp, forall_and]

/-- A reserved word that is held out is at the port or the one the next act presents. -/
theorem reservedWord_eq_some {w : CommandWord} (h : s.reservedWord = some w) :
    legalCommand w = false ∧ (s.port = some w ∨ s.host.head? = some (.present w)) :=
  ⟨by simpa using List.find?_some h, (mem_presentedWords s).mp (List.mem_of_find?_eq_some h)⟩

/-- A reserved word at the port is the one that is refused. -/
theorem reservedWord_of_port {w : CommandWord} (hw : s.port = some w) (hl : legalCommand w = false) :
    s.reservedWord = some w := by
  simp [State.reservedWord, State.presentedWords, hw, hl]

/-- A reserved word that the next act presents is refused, unless the word at the port is refused already. -/
theorem reservedWord_of_present {w : CommandWord} (hp : ∀ v, s.port = some v → legalCommand v = true)
    (hw : s.host.head? = some (.present w)) (hl : legalCommand w = false) : s.reservedWord = some w := by
  obtain ⟨rest, hh⟩ := List.head?_eq_some_iff.mp hw
  cases hs : s.port with
  | none => simp [State.reservedWord, State.presentedWords, HostAct.word, hh, hs, hl]
  | some u => simp [State.reservedWord, State.presentedWords, HostAct.word, hh, hs, hl, hp u hs]

/-! ### What a step runs -/

variable {s}

theorem fetch_of_reset {rest : List HostAct} (h : s.host = .reset :: rest) :
    s.fetch = .done (State.resetEvent { s with host := rest }) := by
  simp only [State.fetch, h]

theorem fetch_of_no_reset (h : s.host.head? ≠ some .reset) (hl : s.reservedWord = none) :
    s.fetch = s.hostActs.agentStep := by
  unfold State.fetch
  split
  · rename_i rest hh
    simp [hh] at h
  · simp only [hl]

/-- A reserved word held out is refused, in any phase (R73). -/
theorem step_of_reservedWord {w : CommandWord} (h : s.host.head? ≠ some .reset) (hl : s.reservedWord = some w) :
    step s = .refused (.reserved (.command w)) := by
  have hf : s.fetch = .reject (.command w) := by
    unfold State.fetch
    split
    · rename_i rest hh
      simp [hh] at h
    · simp only [hl]
  simp only [step, hf]

theorem step_of_reset {rest : List HostAct} (h : s.host = .reset :: rest) :
    step s = .next (State.resetEvent { s with host := rest }) := by
  simp only [step, fetch_of_reset h]

theorem step_of_busy {i : Instr} (hp : s.phase = .busy) (hr : s.host.head? ≠ some .reset)
    (hl : s.reservedWord = none)
    (hd : decodeMicro s.seq = .ok i) : step s = exec i s.hostActs := by
  simp only [step, fetch_of_no_reset hr hl, State.agentStep, hostActs_phase, hp, hostActs_seq, hd]

theorem step_of_busy_reserved {r : Reserved} (hp : s.phase = .busy) (hr : s.host.head? ≠ some .reset)
    (hl : s.reservedWord = none)
    (hd : decodeMicro s.seq = .error r) : step s = .refused (.reserved r) := by
  simp only [step, fetch_of_no_reset hr hl, State.agentStep, hostActs_phase, hp, hostActs_seq, hd]

theorem step_of_fault (hp : s.phase = .fault) (hr : s.host.head? ≠ some .reset) (hl : s.reservedWord = none) :
    step s = .next s.hostActs := by
  simp only [step, fetch_of_no_reset hr hl, State.agentStep, hostActs_phase, hp]

theorem step_of_idle_empty (hp : s.phase = .idle) (hr : s.host.head? ≠ some .reset)
    (hl : s.reservedWord = none) (hn : s.hostActs.port = none) :
    step s = .next s.hostActs := by
  simp only [step, fetch_of_no_reset hr hl, State.agentStep, hostActs_phase, hp, hn]

theorem step_of_idle {w : CommandWord} {i : Instr} (hp : s.phase = .idle) (hr : s.host.head? ≠ some .reset)
    (hl : s.reservedWord = none)
    (hw : s.hostActs.port = some w) (hd : decodeCommand w = .ok i) :
    step s = exec i { s.hostActs with port := none } := by
  simp only [step, fetch_of_no_reset hr hl, State.agentStep, hostActs_phase, hp, hw, hd]

/-- Where the word at the port comes from. -/
theorem hostActs_port_source {w : CommandWord} (hw : s.hostActs.port = some w) :
    s.port = some w ∨ s.port = none ∧ s.host.head? = some (.present w) := by
  cases hp : s.port with
  | none => exact .inr ⟨rfl, hostActs_port_of_none s hp hw⟩
  | some v =>
    rw [hostActs_port_of_some s hp] at hw
    exact .inl hw

/-- The word at the port decodes where no reserved word is held out. -/
theorem decodeCommand_of_hostActs_port {w : CommandWord} (hl : s.reservedWord = none) (hw : s.hostActs.port = some w) :
    ∃ i, decodeCommand w = .ok i := by
  obtain ⟨h1, h2⟩ := (reservedWord_eq_none_iff s).mp hl
  have h : legalCommand w = true := by
    rcases hostActs_port_source hw with h | ⟨-, h⟩
    · exact h1 w h
    · exact h2 w h
  unfold legalCommand at h
  split at h
  · exact ⟨_, ‹_›⟩
  · cases h

/-- A step that answers a next state held out no reserved word, or was a reset. -/
theorem reservedWord_of_next {t : State} (h : step s = .next t) (hr : s.host.head? ≠ some .reset) :
    s.reservedWord = none := by
  cases hl : s.reservedWord with
  | none => rfl
  | some w =>
    rw [step_of_reservedWord hr hl] at h
    cases h

/-- Everything a step that answers a next state can have done: a reset, a command in `IDLE`, a micro-operation in `BUSY`,
or the host's act alone. -/
theorem step_cases {t : State} (h : step s = .next t) :
    (∃ rest, s.host = .reset :: rest ∧ t = State.resetEvent { s with host := rest }) ∨
    (s.host.head? ≠ some .reset ∧ s.phase = .idle ∧ ∃ w i, s.hostActs.port = some w ∧
      (s.port = some w ∨ s.port = none ∧ s.host.head? = some (.present w)) ∧ decodeCommand w = .ok i ∧
      exec i { s.hostActs with port := none } = .next t) ∨
    (s.host.head? ≠ some .reset ∧ s.phase = .busy ∧ ∃ i, decodeMicro s.seq = .ok i ∧ exec i s.hostActs = .next t) ∨
    (s.host.head? ≠ some .reset ∧ s.phase ≠ .busy ∧ t = s.hostActs) := by
  by_cases hr : s.host.head? = some .reset
  · obtain ⟨rest, hh⟩ : ∃ rest, s.host = .reset :: rest := by
      cases hs : s.host with
      | nil => simp [hs] at hr
      | cons a rest => exact ⟨rest, by simpa [hs] using hr⟩
    rw [step_of_reset hh] at h
    cases h
    exact .inl ⟨rest, hh, rfl⟩
  · have hl := reservedWord_of_next h hr
    cases hp : s.phase with
    | idle =>
      cases hw : s.hostActs.port with
      | none =>
        rw [step_of_idle_empty hp hr hl hw] at h
        cases h
        simp [hr]
      | some w =>
        obtain ⟨i, hd⟩ := decodeCommand_of_hostActs_port hl hw
        rw [step_of_idle hp hr hl hw hd] at h
        exact .inr (.inl ⟨hr, rfl, w, i, rfl, hostActs_port_source hw, hd, h⟩)
    | busy =>
      cases hd : decodeMicro s.seq with
      | ok i =>
        rw [step_of_busy hp hr hl hd] at h
        exact .inr (.inr (.inl ⟨hr, rfl, i, rfl, h⟩))
      | error r =>
        rw [step_of_busy_reserved hp hr hl hd] at h
        cases h
    | fault =>
      rw [step_of_fault hp hr hl] at h
      cases h
      simp [hr]

end Sys2Proof.Machine
end

