-- ==== Sys2Proof/Laws/Run.lean ====
section
/-! SUPPORT. Runs of several steps, and which of the host's acts a step leaves for later. -/

namespace Sys2Proof.Machine

@[simp] theorem runSteps_zero (s : State) : runSteps 0 s = .next s := rfl

theorem runSteps_succ_of_next {s t : State} (n : Nat) (h : step s = .next t) : runSteps (n + 1) s = runSteps n t := by
  simp only [runSteps, h]

theorem runSteps_succ_of_refused {s : State} {r : Refusal} (n : Nat) (h : step s = .refused r) :
    runSteps (n + 1) s = .refused r := by
  simp only [runSteps, h]

/-- A run of `m` steps that answers a next state, then `n` steps from there. -/
theorem runSteps_add_of_next {s t : State} {m : Nat} (n : Nat) (h : runSteps m s = .next t) :
    runSteps (m + n) s = runSteps n t := by
  induction m generalizing s with
  | zero => cases h; rw [Nat.zero_add]
  | succ m ih =>
    cases hs : step s with
    | next u =>
      rw [runSteps_succ_of_next m hs] at h
      rw [Nat.add_right_comm, runSteps_succ_of_next _ hs, ih h]
    | fault r => cases r
    | refused r =>
      rw [runSteps_succ_of_refused m hs] at h
      cases h

/-- No reset is at the head of a list that holds none. -/
theorem head_ne_reset {s : State} (h : HostAct.reset ∉ s.host) : s.host.head? ≠ some .reset :=
  fun e => h (List.mem_of_mem_head? e)

/-- A host that presents only commands holds out no reserved word. -/
theorem reservedWord_of_legalHost {s : State} (h : s.LegalHost) : s.reservedWord = none :=
  (reservedWord_eq_none_iff s).mpr ⟨fun w hw => h.1 w hw, fun _ hw => h.2 _ (List.mem_of_mem_head? hw)⟩

/-- The host's act keeps what it presents to commands. -/
theorem hostActs_legalHost {s : State} (h : s.LegalHost) : s.hostActs.LegalHost := by
  refine ⟨fun w hw => ?_, fun a ha => h.2 a ((hostActs_host_suffix s).subset ha)⟩
  rcases hostActs_port_source hw with hp | ⟨-, hp⟩
  · exact h.1 w hp
  · exact h.2 _ (List.mem_of_mem_head? hp)

theorem hostActs_no_reset {s : State} (h : HostAct.reset ∉ s.host) : HostAct.reset ∉ s.hostActs.host :=
  fun e => h ((hostActs_host_suffix s).subset e)

/-- The host's list only gets shorter over a step that is no reset, and the port holds then what `hostActs` left there, or
nothing. -/
theorem step_host_port {s t : State} (hr : s.host.head? ≠ some .reset) (h : step s = .next t) :
    t.host = s.hostActs.host ∧ (t.port = none ∨ t.port = s.hostActs.port) := by
  rcases step_cases h with ⟨rest, hh, -⟩ | ⟨-, -, w, i, -, -, -, he⟩ | ⟨-, -, i, -, he⟩ | ⟨-, -, rfl⟩
  · simp [hh] at hr
  · exact ⟨(exec_port_host he).2, .inl (exec_port_host he).1⟩
  · exact ⟨(exec_port_host he).2, .inr (exec_port_host he).1⟩
  · exact ⟨rfl, .inr rfl⟩

/-- A host without a reset stays one. -/
theorem step_no_reset {s t : State} (hr : HostAct.reset ∉ s.host) (h : step s = .next t) : HostAct.reset ∉ t.host := by
  rw [(step_host_port (head_ne_reset hr) h).1]
  exact hostActs_no_reset hr

/-- A host that presents only commands stays one. -/
theorem step_legalHost {s t : State} (hr : HostAct.reset ∉ s.host) (hg : s.LegalHost) (h : step s = .next t) :
    t.LegalHost := by
  obtain ⟨hh, hp⟩ := step_host_port (head_ne_reset hr) h
  have ha := hostActs_legalHost hg
  refine ⟨fun w hw => ?_, hh ▸ ha.2⟩
  rcases hp with hp | hp
  · simp [hp] at hw
  · exact ha.1 w (hp ▸ hw)

end Sys2Proof.Machine
end

