-- ==== Sys2Proof/Laws/Block.lean ====
section
/-! SUPPORT. The schedule of a block word by word, and the progress of a block through the micro-operations: what each of the
130 steps adds to what the steps before it have done. -/

namespace Sys2Proof.Machine

/-! ### The schedule -/

/-- One more derived word leaves the others as they are. -/
theorem scheduleUpTo_succ_ne (B : Block) (n : Nat) {p : Fin 64} (h : p.val ≠ 16 + n) (hn : n < 48) :
    (scheduleUpTo B (n + 1))[p] = (scheduleUpTo B n)[p] := by
  have hv : (Fin.ofNat 64 (16 + n)).val = 16 + n := by simp only [Fin.ofNat]; omega
  simp only [scheduleUpTo, Fin.getElem_fin]
  exact Vector.getElem_set_ne _ _ (by omega)

/-- A word, once there, stays. -/
theorem scheduleUpTo_stable (B : Block) {n m : Nat} (hnm : n ≤ m) (hm : m ≤ 48) {p : Fin 64} (hp : p.val < 16 + n) :
    (scheduleUpTo B m)[p] = (scheduleUpTo B n)[p] := by
  induction m, hnm using Nat.le_induction with
  | base => rfl
  | succ m hle ih => rw [scheduleUpTo_succ_ne B m (by omega) (by omega), ih (by omega)]

/-- The first sixteen words are the input words (R122). -/
theorem schedule_input (B : Block) (j : Fin 16) : (schedule B)[deserTarget j] = inputWord B j := by
  rw [schedule, scheduleUpTo_stable B (Nat.zero_le 48) (Nat.le_refl 48) (by simp only [deserTarget]; omega)]
  simp [scheduleUpTo, deserTarget]

/-- The derived words that are there satisfy the recurrence (R125). -/
theorem scheduleUpTo_derived (B : Block) {m : Nat} (hm : m ≤ 48) {i : Fin 64} (h : 16 ≤ i.val) (hi : i.val < 16 + m) :
    (scheduleUpTo B m)[i] = expandWord (scheduleUpTo B m) i := by
  obtain ⟨n, hn⟩ : ∃ n, i.val = 16 + n := ⟨i.val - 16, by omega⟩
  have hv : Fin.ofNat 64 (16 + n) = i := Fin.ext (by simp only [Fin.ofNat]; omega)
  have hsrc : ∀ back, 1 ≤ back → (scheduleUpTo B n)[expandSource i back] = (scheduleUpTo B m)[expandSource i back] :=
    fun back hb =>
      (scheduleUpTo_stable B (n := n) (m := m) (by omega) hm (by simp only [expandSource]; omega)).symm
  rw [scheduleUpTo_stable B (n := n + 1) (m := m) (by omega) hm (by omega)]
  have hset : (scheduleUpTo B (n + 1))[i] = expandWord (scheduleUpTo B n) i := by
    simp only [scheduleUpTo, hv, Fin.getElem_fin, Vector.getElem_set_self]
  rw [hset]
  simp only [expandWord, hsrc 16 (by decide), hsrc 15 (by decide), hsrc 7 (by decide), hsrc 2 (by decide)]

/-- The derived words satisfy the recurrence (R125, R130). -/
theorem schedule_derived (B : Block) {i : Fin 64} (h : 16 ≤ i.val) : (schedule B)[i] = expandWord (schedule B) i :=
  scheduleUpTo_derived B (Nat.le_refl 48) h (by omega)

/-! ### Positions of the sequencer -/

/-- The value of `SEQ` before the `k`-th micro-operation of a block. -/
def seqAt (k : Nat) : SeqWord :=
  if k < 16 then seqDeser (Fin.ofNat 16 k)
  else if k < 64 then seqExpand (Fin.ofNat 64 k)
  else if k = 64 then seqWvinit
  else if k < 129 then seqRound (Fin.ofNat 64 (k - 65))
  else seqAddback

/-- What has happened before the `k`-th micro-operation of the block that `s` began. -/
structure BlockAt (s : State) (k : Nat) (t : State) : Prop where
  phase : t.phase = .busy
  seq : t.seq = seqAt k
  hash : t.hash = s.hash
  buf : t.buf = s.buf
  cnt : t.cnt = s.cnt
  fcause : t.fcause = s.fcause
  responses : t.responses = s.responses
  noReset : HostAct.reset ∉ t.host
  legalHost : t.LegalHost
  sched : ∀ p : Fin 64, p.val < k → t.sched[p] = (schedule s.buf)[p]
  work : 65 ≤ k → t.work = roundsFrom (schedule s.buf) (workOfHash s.hash) (k - 65)

theorem inputWord_eq_memRead (s : State) (j : Fin 16) : s.memRead (deserBase j) 4 = inputWord s.buf j := by
  have h : ∀ k, k < 4 → (Fin.ofNat 64 (deserBase j + k)).val = 4 * j.val + k := fun k hk => by
    simp only [Fin.ofNat, deserBase]
    omega
  rw [memRead_four]
  simp only [inputWord, State.readBuf, Fin.getElem_fin, h 1 (by decide), h 2 (by decide), h 3 (by decide),
    show (Fin.ofNat 64 (deserBase j)).val = 4 * j.val from h 0 (by decide)]

/-- Each micro-operation but the last brings the block one position further. -/
theorem BlockAt.succ {s u : State} {k : Nat} (h : BlockAt s k u) (hk : k < 129) :
    ∃ t, step u = .next t ∧ BlockAt s (k + 1) t := by
  have hr := head_ne_reset h.noReset
  have hn := hostActs_no_reset h.noReset
  have hl := reservedWord_of_legalHost h.legalHost
  have hg := hostActs_legalHost h.legalHost
  by_cases h1 : k < 16
  · have hd : decodeMicro u.seq = .ok (.deser (Fin.ofNat 16 k)) := by
      rw [h.seq, seqAt, if_pos h1]; exact decodeMicro_seqDeser _
    have hv : (Fin.ofNat 16 k).val = k := by simp only [Fin.ofNat]; omega
    refine ⟨_, (step_of_busy h.phase hr hl hd).trans rfl, ?_⟩
    constructor
    · simp [h.phase]
    · simp only [State.writeSeq_seq, nextDeser, seqAt, hv]
      split
      · rw [if_pos (by omega)]
        exact congrArg seqDeser (Fin.ext (by rw [Fin.val_add_one_of_lt' (by omega)]; simp only [Fin.ofNat]; omega))
      · rw [if_neg (by omega), if_pos (by omega)]
        exact congrArg seqExpand (Fin.ext (by simp only [Fin.ofNat]; omega))
    · simp [h.hash]
    · simp [h.buf]
    · simp [h.cnt]
    · simp [h.fcause]
    · simp [h.responses]
    · simpa using hn
    · exact hg
    · intro p hp
      by_cases hpk : p.val = k
      · have hpt : p = deserTarget (Fin.ofNat 16 k) := Fin.ext (by simp only [deserTarget, hv, hpk])
        rw [hpt, schedule_input]
        show State.readSched (State.writeSched _ _ _) _ = _
        rw [readSched_writeSched_self, inputWord_eq_memRead, hostActs_buf, h.buf]
      · have hpt : p ≠ deserTarget (Fin.ofNat 16 k) := fun e => hpk (by rw [e]; exact hv)
        show State.readSched (State.writeSched _ _ _) _ = _
        rw [readSched_writeSched_ne _ _ hpt, State.readSched, hostActs_sched]
        exact h.sched p (by omega)
    · intro hc; omega
  by_cases h2 : k < 64
  · have hv : (Fin.ofNat 64 k).val = k := by simp only [Fin.ofNat]; omega
    have hd : decodeMicro u.seq = .ok (.expand (Fin.ofNat 64 k)) := by
      rw [h.seq, seqAt, if_neg h1, if_pos h2]; exact decodeMicro_seqExpand _ (by omega)
    refine ⟨_, (step_of_busy h.phase hr hl hd).trans (exec_expand_of_le (by omega)), ?_⟩
    constructor
    · simp [h.phase]
    · simp only [State.writeSeq_seq, nextExpand, seqAt, hv]
      split
      · rw [if_neg (by omega), if_pos (by omega)]
        exact congrArg seqExpand (Fin.ext (by rw [Fin.val_add_one_of_lt' (by omega)]; simp only [Fin.ofNat]; omega))
      · rw [if_neg (by omega), if_neg (by omega), if_pos (by omega)]
    · simp [h.hash]
    · simp [h.buf]
    · simp [h.cnt]
    · simp [h.fcause]
    · simp [h.responses]
    · simpa using hn
    · exact hg
    · intro p hp
      by_cases hpk : p = Fin.ofNat 64 k
      · subst hpk
        show State.readSched (State.writeSched _ _ _) _ = _
        rw [readSched_writeSched_self, schedule_derived _ (by omega), hostActs_sched]
        have hsrc : ∀ back, 1 ≤ back → u.sched[expandSource (Fin.ofNat 64 k) back] =
            (schedule s.buf)[expandSource (Fin.ofNat 64 k) back] := fun back hb =>
          h.sched _ (by simp only [expandSource, hv]; omega)
        simp only [expandWord, hsrc 16 (by decide), hsrc 15 (by decide), hsrc 7 (by decide), hsrc 2 (by decide)]
      · have hpk' : p.val ≠ k := fun e => hpk (Fin.ext (by rw [hv, e]))
        show State.readSched (State.writeSched _ _ _) _ = _
        rw [readSched_writeSched_ne _ _ hpk, State.readSched, hostActs_sched]
        exact h.sched p (by omega)
    · intro hc; omega
  by_cases h3 : k = 64
  · subst h3
    have hd : decodeMicro u.seq = .ok .wvinit := by rw [h.seq]; decide
    refine ⟨_, (step_of_busy h.phase hr hl hd).trans rfl, ?_⟩
    constructor
    · simp [h.phase]
    · rfl
    · simp [h.hash]
    · simp [h.buf]
    · simp [h.cnt]
    · simp [h.fcause]
    · simp [h.responses]
    · simpa using hn
    · exact hg
    · intro p _
      simpa using h.sched p p.isLt
    · intro _
      simp [roundsFrom, h.hash]
  · have hv : (Fin.ofNat 64 (k - 65)).val = k - 65 := by simp only [Fin.ofNat]; omega
    have hd : decodeMicro u.seq = .ok (.round (Fin.ofNat 64 (k - 65))) := by
      rw [h.seq, seqAt, if_neg h1, if_neg h2, if_neg h3, if_pos hk]; exact decodeMicro_seqRound _
    refine ⟨_, (step_of_busy h.phase hr hl hd).trans rfl, ?_⟩
    constructor
    · simp [h.phase]
    · simp only [State.writeSeq_seq, nextRound, seqAt, hv]
      rw [if_neg (show ¬ k + 1 < 16 by omega), if_neg (show ¬ k + 1 < 64 by omega), if_neg (show ¬ k + 1 = 64 by omega)]
      split
      · rw [if_pos (by omega)]
        exact congrArg seqRound (Fin.ext (by rw [Fin.val_add_one_of_lt' (by omega)]; simp only [Fin.ofNat]; omega))
      · rw [if_neg (by omega)]
    · simp [h.hash]
    · simp [h.buf]
    · simp [h.cnt]
    · simp [h.fcause]
    · simp [h.responses]
    · simpa using hn
    · exact hg
    · intro p _
      simpa using h.sched p (by omega)
    · intro _
      have hw := h.work (by omega)
      have hs := h.sched (Fin.ofNat 64 (k - 65)) (by omega)
      have hk' : k + 1 - 65 = (k - 65) + 1 := by omega
      rw [hk']
      simp only [roundsFrom, State.writeSeq_work, State.writeWork_work, hostActs_work, hw, State.readSched,
        hostActs_sched, hs]

end Sys2Proof.Machine
end

