-- ==== Sys2Proof/Laws/PerInstr.lean ====
section
/-! SUPPORT. A statement about every instruction as syntax, one lemma per constructor: the code word of a well-formed
instruction has the format of its row of `spec/opcode_table.json`, and the row's fixed bits. -/

namespace Sys2Proof.Laws.RowBits

/-- The word's fixed bits are those of the row: `(w and mask) = match` (R71, R78). -/
def Statement : Instr → Prop
  | .init => ∃ w, encode .init = .command w ∧ w &&& 0x7FF#11 = 0x000#11
  | .push d => ∃ w, encode (.push d) = .command w ∧ w &&& 0x700#11 = 0x100#11
  | .start => ∃ w, encode .start = .command w ∧ w &&& 0x7FF#11 = 0x200#11
  | .rdb k => ∃ w, encode (.rdb k) = .command w ∧ w &&& 0x7E0#11 = 0x300#11
  | .rdh n => ∃ w, encode (.rdh n) = .command w ∧ w &&& 0x7C0#11 = 0x400#11
  | .deser j => ∃ w, encode (.deser j) = .seq w ∧ w &&& 0x1F0#9 = 0x000#9
  | .expand i => i.val ≥ 16 → ∃ w, encode (.expand i) = .seq w ∧ w &&& 0x1C0#9 = 0x040#9 ∧ 16 ≤ (seqIdx w).toNat
  | .wvinit => ∃ w, encode .wvinit = .seq w ∧ w &&& 0x1FF#9 = 0x080#9
  | .round i => ∃ w, encode (.round i) = .seq w ∧ w &&& 0x1C0#9 = 0x0C0#9
  | .addback => ∃ w, encode .addback = .seq w ∧ w &&& 0x1FF#9 = 0x100#9

theorem init : Statement .init := ⟨_, rfl, by decide⟩

theorem push (d : Byte) : Statement (.push d) := by
  refine ⟨_, rfl, (pushRow_iff _).mpr ?_⟩
  have h := d.isLt
  simp only [commandWord_toNat, BitVec.toNat_ofNat]
  omega

theorem start : Statement .start := ⟨_, rfl, by decide⟩

theorem rdb (k : Fin 32) : Statement (.rdb k) := by
  refine ⟨_, rfl, (rdbRow_iff _).mpr ?_⟩
  simp only [commandWord_toNat, BitVec.toNat_ofNat]
  omega

theorem rdh (n : Fin 64) : Statement (.rdh n) := by
  refine ⟨_, rfl, (rdhRow_iff _).mpr ?_⟩
  simp only [commandWord_toNat, BitVec.toNat_ofNat]
  omega

theorem deser (j : Fin 16) : Statement (.deser j) := by
  refine ⟨_, rfl, (deserRow_iff _).mpr ?_⟩
  simp only [seqDeser, seqWord_toNat, BitVec.toNat_ofNat]
  omega

theorem expand (i : Fin 64) : Statement (.expand i) := by
  intro hi
  refine ⟨_, rfl, (expandRow_iff _).mpr ?_, ?_⟩
  · simp only [seqExpand, seqWord_toNat, BitVec.toNat_ofNat]
    omega
  · rw [seqIdx_toNat]
    simp only [seqExpand, seqWord_toNat, BitVec.toNat_ofNat]
    omega

theorem wvinit : Statement .wvinit := ⟨_, rfl, by decide⟩

theorem round (i : Fin 64) : Statement (.round i) := by
  refine ⟨_, rfl, (roundRow_iff _).mpr ?_⟩
  simp only [seqRound, seqWord_toNat, BitVec.toNat_ofNat]
  omega

theorem addback : Statement .addback := ⟨_, rfl, by decide⟩

end Sys2Proof.Laws.RowBits
end

