-- ==== Sys2Proof/Tests/Slice0.lean ====
section
/-! SUPPORT. Tests: expected values from the spec's own examples and from `95_test_vectors.md`, one step each; then, for every
statement with hypotheses, a concrete state and operands that meet them. -/

namespace Sys2Proof.Tests

open Sys2Proof Sys2Proof.Machine

/-! ### Small states -/

/-- An `IDLE` machine with `CNT = c`, the word `p` at the port, and the host's acts. -/
def idleAt (c : Fin 65) (p : Option CommandWord) (acts : List HostAct) : State :=
  { State.reset with cnt := c, port := p, host := acts }

/-- A `BUSY` machine at a position of the sequencer. -/
def busyAt (w : SeqWord) (p : Option CommandWord) (acts : List HostAct) : State :=
  { State.reset with phase := .busy, cnt := 64, seq := w, port := p, host := acts }

/-- A machine in `FAULT`. -/
def faultAt (p : Option CommandWord) (acts : List HostAct) : State :=
  { State.reset with phase := .fault, fcause := some .underrun, port := p, host := acts }

/-- The block of "abc" (V2). -/
def abcBlock : Block := blockAt (pad [0x61#8, 0x62#8, 0x63#8]) 0

/-- The hash state after the block of "abc" (V2). -/
def abcHash : HashWords :=
  #v[0xba7816bf#32, 0x8f01cfea#32, 0x414140de#32, 0x5dae2223#32, 0xb00361a3#32, 0x96177a9c#32, 0xb410ff61#32, 0xf20015ad#32]

/-- The working variables after `ROUND 63` of the block of "abc" (V11). -/
def abcWork : WorkVars :=
  { a := 0x506e3058#32, b := 0xd39a2165#32, c := 0x04d24d6c#32, d := 0xb85e2ce9#32
    e := 0x5ef50f24#32, f := 0xfb121210#32, g := 0x948d25b6#32, h := 0x961f4894#32 }

/-- One field of the next state. -/
def field {α : Type} (f : State → α) (o : Host.Outcome State Fault Refusal) : Option α := (nextOf o).map f

/-! ### WellFormed -/

/-- The one check refuses an `EXPAND` whose index is below 16 (R78). -/
theorem test_wf_refuses_expand_below_16 : (Instr.expand 15).wf = false ∧ (Instr.expand 0).wf = false := by decide

theorem test_wf_accepts_expand_16 : (Instr.expand 16).wf = true := by decide

/-! ### Decoding: words written from R71 and R78 (V16) -/

theorem test_decode_init : decodeCommand 0x000#11 = .ok .init ∧ decodeCommand 0x001#11 = .error (.command 0x001#11) := by
  decide

theorem test_decode_push : decodeCommand 0x100#11 = .ok (.push 0x00#8) ∧ decodeCommand 0x180#11 = .ok (.push 0x80#8) ∧
    decodeCommand 0x1ff#11 = .ok (.push 0xff#8) := by decide

theorem test_decode_start : decodeCommand 0x200#11 = .ok .start ∧ decodeCommand 0x201#11 = .error (.command 0x201#11) := by
  decide

theorem test_decode_rdb : decodeCommand 0x300#11 = .ok (.rdb 0) ∧ decodeCommand 0x31f#11 = .ok (.rdb 31) ∧
    decodeCommand 0x320#11 = .error (.command 0x320#11) := by decide

theorem test_decode_rdh : decodeCommand 0x400#11 = .ok (.rdh 0) ∧ decodeCommand 0x43f#11 = .ok (.rdh 63) ∧
    decodeCommand 0x440#11 = .error (.command 0x440#11) ∧ decodeCommand 0x7ff#11 = .error (.command 0x7ff#11) := by decide

theorem test_decode_deser : decodeMicro 0x000#9 = .ok (.deser 0) ∧ decodeMicro 0x00f#9 = .ok (.deser 15) ∧
    decodeMicro 0x010#9 = .error (.seq 0x010#9) := by decide

theorem test_decode_expand : decodeMicro 0x04f#9 = .error (.seq 0x04f#9) ∧ decodeMicro 0x050#9 = .ok (.expand 16) ∧
    decodeMicro 0x07f#9 = .ok (.expand 63) := by decide

theorem test_decode_wvinit : decodeMicro 0x080#9 = .ok .wvinit ∧ decodeMicro 0x081#9 = .error (.seq 0x081#9) := by decide

theorem test_decode_round : decodeMicro 0x0c0#9 = .ok (.round 0) ∧ decodeMicro 0x0ff#9 = .ok (.round 63) := by decide

theorem test_decode_addback : decodeMicro 0x100#9 = .ok .addback ∧ decodeMicro 0x1ff#9 = .error (.seq 0x1ff#9) := by decide

theorem test_encode_words : encode (.push 0x61#8) = .command 0x161#11 ∧ encode (.rdh 63) = .command 0x43f#11 ∧
    encode (.expand 16) = .seq 0x050#9 ∧ encode (.round 63) = .seq 0x0ff#9 ∧ encode .addback = .seq 0x100#9 := by decide

/-- Words of the opcode table in 16 bits, the two that both formats have among them (log entry 6), and in the row's own
width. -/
theorem test_table_words : decodeTableWord 16 0x000 = some .init ∧ decodeTableWord 16 0x100 = some .addback ∧
    decodeTableWord 16 0x161 = some (.push 0x61#8) ∧ decodeTableWord 16 0x00f = some (.deser 15) ∧
    decodeTableWord 16 0x040 = none ∧ decodeTableWord 16 0x07f = some (.expand 63) ∧
    decodeTableWord 11 0x100 = some (.push 0x00#8) ∧ decodeTableWord 9 0x000 = some (.deser 0) := by decide

/-! ### Primitives (section 3 of the vectors) -/

theorem test_rotr : rotr 0x12345678#32 7 = 0xf02468ac#32 ∧ rotr 0x00000001#32 25 = 0x00000080#32 := by decide

theorem test_ssig : ssig0 0x80000000#32 = 0x11002000#32 ∧ ssig1 0x61626380#32 = 0x7da86405#32 := by decide

theorem test_bsig : bsig0 0x6a09e667#32 = 0xce20b47e#32 ∧ bsig1 0x510e527f#32 = 0x3587272b#32 := by decide

theorem test_ch_maj : ch 0xf0f0f0f0#32 0xaaaaaaaa#32 0x55555555#32 = 0xa5a5a5a5#32 ∧
    maj 0xf0f0f0f0#32 0xcccccccc#32 0xaaaaaaaa#32 = 0xe8e8e8e8#32 := by decide

theorem test_be32 : be32 0x61#8 0x62#8 0x63#8 0x80#8 = 0x61626380#32 := by decide

/-! ### Instructions, one step each -/

/-- R110's example: after `INIT`, `H[7] = 0x5be0cd19` and `CNT = 0`, with 3 stray bytes counted before. -/
theorem test_init : field (fun t => (t.hash[7], t.cnt)) (exec .init { idleAt 3 none [] with hash := abcHash }) =
    some (0x5be0cd19#32, 0) := by decide

/-- R111's example, at the last free place: the push that takes `CNT` from 63 to 64 is legal. -/
theorem test_push_last : field (fun t => (t.readBuf 63, t.cnt, t.responses)) (exec (.push 0x18#8) (idleAt 63 none [])) =
    some (0x18#8, 64, [.ack]) := by decide

/-- V15: a 65th byte faults with code 2. -/
theorem test_push_overrun : field (fun t => (t.phase, fcauseCode t.fcause, t.cnt)) (exec (.push 0x61#8) (idleAt 64 none [])) =
    some (.fault, 2#2, 64) := by decide

/-- V15: `START` with 63 bytes faults with code 1. -/
theorem test_start_underrun : field (fun t => (t.phase, fcauseCode t.fcause, t.responses))
    (exec .start (idleAt 63 none [])) = some (.fault, 1#2, [.fault .underrun]) := by decide

/-- P7: an accepted `START` leaves `SEQ = 0x000` and gives no response. -/
theorem test_start_accepted : field (fun t => (t.phase, t.seq, t.responses)) (exec .start (idleAt 64 none [])) =
    some (.busy, 0x000#9, []) := by decide

/-- V14: `RDB 7` of the digest of "abc" is `0xea`. -/
theorem test_rdb : field (fun t => t.responses) (exec (.rdb 7) { idleAt 0 none [] with hash := abcHash }) =
    some [.data 0xea#8] := by decide

/-- V14: `RDH 9` of the digest of "abc" is `'f'`. -/
theorem test_rdh : field (fun t => t.responses) (exec (.rdh 9) { idleAt 0 none [] with hash := abcHash }) =
    some [.data 0x66#8] := by decide

/-- R120's example: `BUF[60..63] = 00 00 00 18` gives `W[15] = 0x00000018`, and `SEQ` becomes `0x050`. -/
theorem test_deser_15 : field (fun t => (t.readSched 15, t.seq)) (exec (.deser 15) { busyAt 0x00f#9 none [] with buf := abcBlock }) =
    some (0x00000018#32, 0x050#9) := by decide

/-- R120's example: `BUF[0..3] = 61 62 63 80` gives `W[0] = 0x61626380`. -/
theorem test_deser_0 : field (fun t => t.readSched 0) (exec (.deser 0) { busyAt 0x000#9 none [] with buf := abcBlock }) =
    some 0x61626380#32 := by decide

/-- Row 16 of V10 from rows 0 to 12: `W[19] = 0x600003c6` is `ssig1` of `W[17] = 0x000f0000` alone. -/
theorem test_expand_19 : field (fun t => (t.readSched 19, t.seq)) (exec (.expand 19)
    { busyAt 0x053#9 none [] with sched := (Vector.replicate 64 0#32).set 17 0x000f0000#32 }) =
    some (0x600003c6#32, 0x054#9) := by decide

/-- `EXPAND 63` reads `W[47], W[48], W[56], W[61]` (V10) and gives `W[63] = 0x12b1edeb`; `SEQ` becomes `0x080`. -/
theorem test_expand_63 : field (fun t => (t.readSched 63, t.seq)) (exec (.expand 63)
    { busyAt 0x07f#9 none [] with sched :=
        ((((Vector.replicate 64 0#32).set 47 0x065c43da#32).set 48 0xfb3e89cb#32).set 56 0xef57b9cd#32).set 61 0x668b2ff8#32 }) =
    some (0x12b1edeb#32, 0x080#9) := by decide

/-- R136's example. -/
theorem test_wvinit : field (fun t => (t.work.a, t.work.e, t.work.h, t.seq)) (exec .wvinit (busyAt 0x080#9 none [])) =
    some (0x6a09e667#32, 0x510e527f#32, 0x5be0cd19#32, 0x0c0#9) := by decide

/-- R147: `ROUND 0` of the block of "abc". -/
theorem test_round_0 : field (fun t => (t.work.a, t.work.d, t.work.e, t.work.h)) (exec (.round 0)
    { busyAt 0x0c0#9 none [] with work := workOfHash IV, sched := (Vector.replicate 64 0#32).set 0 0x61626380#32 }) =
    some (0x5d6aebcd#32, 0x3c6ef372#32, 0xfa2a4622#32, 0x1f83d9ab#32) := by decide

/-- Row 63 of V11 from row 62, and `SEQ` becomes `0x100`. -/
theorem test_round_63 : field (fun t => (t.work, t.seq)) (exec (.round 63)
    { busyAt 0x0ff#9 none [] with
      work := { a := 0xd39a2165#32, b := 0x04d24d6c#32, c := 0xb85e2ce9#32, d := 0xb6ae8fff#32
                e := 0xfb121210#32, f := 0x948d25b6#32, g := 0x961f4894#32, h := 0xb21bad3d#32 }
      sched := (Vector.replicate 64 0#32).set 63 0x12b1edeb#32 }) =
    some (abcWork, 0x100#9) := by decide

/-- V11: `ADDBACK` of the block of "abc" from `IV`, and the `ACK` of its `START`. -/
theorem test_addback : field (fun t => (t.hash, t.cnt, t.phase, t.responses)) (exec .addback
    { busyAt 0x100#9 none [] with work := abcWork }) = some (abcHash, 0, .idle, [.ack]) := by decide

/-! ### Steps -/

/-- V15: after a fault an `INIT` is never answered. -/
theorem test_fault_init_unanswered : field (fun t => (t.phase, t.port, t.responses, t.cnt))
    (step { faultAt none [.present 0x000#11] with cnt := 3 }) = some (.fault, some 0x000#11, [], 3) := by decide

/-- P4: a reset in `FAULT` drops the unanswered `RDB 0`. -/
theorem test_reset_in_fault : field (fun t => (t.phase, t.fcause, t.port, t.host, t.hash[0]))
    (step (faultAt (some 0x300#11) [.reset, .present 0x300#11])) =
    some (.idle, none, none, [.present 0x300#11], 0x6a09e667#32) := by decide

/-- R207: an `RDB 0` presented while `BUSY` is held, and the micro-operation runs. -/
theorem test_hold : field (fun t => (t.phase, t.seq, t.port, t.responses)) (step (busyAt 0x000#9 none [.present 0x300#11])) =
    some (.busy, 0x001#9, some 0x300#11, []) := by decide

/-- R73, R212: a reserved word has no move in `BUSY` nor in `FAULT`, not even while a command is held. -/
theorem test_reserved_refused : step (busyAt 0x000#9 none [.present 0x001#11]) = .refused (.reserved (.command 0x001#11)) ∧
    step (busyAt 0x000#9 (some 0x300#11) [.present 0x7ff#11]) = .refused (.reserved (.command 0x7ff#11)) ∧
    step (faultAt none [.present 0x320#11]) = .refused (.reserved (.command 0x320#11)) := ⟨rfl, rfl, rfl⟩

/-- R162, R206: a host that awaits a response does not present the next command in `BUSY`; after `ADDBACK` it goes on. -/
theorem test_await : field (fun t => (t.port, t.host)) (step (busyAt 0x000#9 none [.await, .present 0x300#11])) =
      some (none, [.await, .present 0x300#11]) ∧
    field (fun t => t.host) (step (idleAt 0 none [.await, .present 0x300#11])) = some [.present 0x300#11] := by decide

/-- R210: a run in which a reset drops a held command is not complete. -/
theorem test_dropped_command_not_complete (t : State) :
    ¬ RunComplete (busyAt 0x000#9 none [.present 0x300#11, .reset]) 2 t := by
  rintro ⟨h, -, ha⟩
  cases h
  revert ha
  decide

/-- R210: a run that faulted and was reset has not ended well, though every command has its response. -/
theorem test_faulted_run_not_well (t : State) : ¬ RunEndedWell (idleAt 0 none [.present 0x200#11, .reset]) 2 t :=
  fun h => h.noFault 1 _ (by decide) rfl rfl

/-- Each row's word is what the next step runs, right after reset. -/
theorem test_fetch_word : field (fun t => (t.readBuf 0, t.cnt)) (step (State.reset.withFetchWord 16 0x161)) = some (0x61#8, 1) ∧
    field (fun t => t.seq) (step (State.reset.withFetchWord 16 0x050)) = some 0x051#9 ∧
    field (fun t => t.phase) (step (State.reset.withFetchWord 16 0x100)) = some .idle ∧
    nextOf (step (State.reset.withFetchWord 16 0x7ff)) = none := by decide

/-- R160's example: `pad("abc")` is one block, of the words of V2. -/
theorem test_pad_abc : (pad [0x61#8, 0x62#8, 0x63#8]).length = 64 ∧ inputWord abcBlock 0 = 0x61626380#32 ∧
    inputWord abcBlock 1 = 0#32 ∧ inputWord abcBlock 15 = 0x00000018#32 := by decide

/-- R161's boundary. -/
theorem test_block_count : blockCount 0 = 1 ∧ blockCount 55 = 1 ∧ blockCount 56 = 2 ∧ blockCount 64 = 2 ∧
    blockCount 119 = 2 ∧ blockCount 120 = 3 := by decide

/-- Lines of R75's listing. -/
theorem test_assemble : assembleLine "PUSH 0x61        ; d = 0..255" = some [.present 0x161#11, .await] ∧
    assembleLine "RDB 31" = some [.present 0x31f#11, .await] ∧ assembleLine "RDB 32" = none ∧
    assembleLine "RESET" = some [.reset] := by decide

/-! ### Witnesses: states and operands that meet the hypotheses of a statement -/

theorem witness_DecodeOfEncode : (Instr.expand 16).wf = true ∧ (Instr.expand 63).wf = true ∧ (Instr.push 0xff#8).wf = true := by
  decide

theorem witness_DecodedWord : decode (.command 0x31f#11) = .ok (.rdb 31) ∧ decode (.seq 0x07f#9) = .ok (.expand 63) := by
  decide

theorem witness_ReservedCommandWord_port : let s := idleAt 0 (some 0x001#11) []
    s.port = some 0x001#11 ∧ s.host.head? ≠ some .reset ∧ legalCommand 0x001#11 = false := by decide

theorem witness_ReservedCommandWord_presented : let s := busyAt 0x000#9 (some 0x300#11) [.present 0x440#11]
    s.host.head? = some (.present 0x440#11) ∧ legalCommand 0x440#11 = false ∧
    (∀ v ∈ s.port, legalCommand v = true) := by decide

theorem witness_ReservedSequencerValue : let s := busyAt 0x04f#9 none [.quiet]
    s.phase = .busy ∧ s.host.head? ≠ some .reset ∧ legalSeq s.seq = false ∧ s.reservedWord = none := by decide

theorem witness_IdleStep_presented : let s := idleAt 0 none [.present 0x100#11, .quiet]
    s.phase = .idle ∧ s.port = none ∧ s.host = .present 0x100#11 :: [.quiet] ∧
    decodeCommand 0x100#11 = .ok (.push 0#8) := by decide

theorem witness_IdleStep_port : let s := idleAt 0 (some 0x200#11) [.present 0x100#11]
    s.phase = .idle ∧ s.port = some 0x200#11 ∧
    (∀ a ∈ s.host.head?, a = HostAct.await ∨ ∃ v, a = HostAct.present v ∧ legalCommand v = true) ∧
    decodeCommand 0x200#11 = .ok .start := ⟨rfl, rfl, fun a h => .inr ⟨_, by cases h; rfl, by decide⟩, by decide⟩

theorem witness_IdleStep_port_await : let s := idleAt 0 (some 0x200#11) [.await]
    s.phase = .idle ∧ s.port = some 0x200#11 ∧
    (∀ a ∈ s.host.head?, a = HostAct.await ∨ ∃ v, a = HostAct.present v ∧ legalCommand v = true) ∧
    decodeCommand 0x200#11 = .ok .start := ⟨rfl, rfl, fun a h => .inl (by cases h; rfl), by decide⟩

theorem witness_IdleStep_port_quiet : let s := idleAt 0 (some 0x200#11) [.quiet, .reset]
    s.phase = .idle ∧ s.port = some 0x200#11 ∧ s.host = .quiet :: [.reset] ∧ decodeCommand 0x200#11 = .ok .start := by
  decide

theorem witness_BusyStep : let s := busyAt 0x0ff#9 (some 0x000#11) [.present 0x200#11]
    s.phase = .busy ∧ s.host.head? ≠ some .reset ∧ s.reservedWord = none ∧ decodeMicro s.seq = .ok (.round 63) := by decide

theorem witness_IdleCore : let s := idleAt 64 none [.quiet]
    s.phase = .idle ∧ s.port = none ∧ s.host = .quiet :: [] ∧ (idleAt 64 none [.await]).host = .await :: [] ∧ (idleAt 64 none []).host = [] := by decide

theorem witness_CommandIsHeld_port : let s := busyAt 0x100#9 (some 0x300#11) []
    s.phase = .busy ∧ s.host.head? ≠ some .reset ∧ (∃ t, step s = .next t) ∧ s.port = some 0x300#11 :=
  ⟨rfl, by decide, ⟨_, rfl⟩, rfl⟩

theorem witness_CommandIsHeld_presented : let s := busyAt 0x000#9 none [.present 0x300#11]
    s.phase = .busy ∧ s.host.head? ≠ some .reset ∧ (∃ t, step s = .next t) ∧ s.port = none ∧
    s.host = .present 0x300#11 :: [] := ⟨rfl, by decide, ⟨_, rfl⟩, rfl, rfl⟩

theorem witness_FaultLasts : let s := faultAt (some 0x300#11) [.present 0x000#11, .quiet]
    s.phase = .fault ∧ HostAct.reset ∉ s.host ∧ s.LegalHost ∧ s.port ≠ none := by decide

theorem witness_ResetEvent : (busyAt 0x0c5#9 (some 0x000#11) [.reset, .quiet]).host = .reset :: [.quiet] := rfl

theorem witness_Init : (idleAt 64 none []).phase = .idle ∧
    (let s := faultAt (some 0x000#11) []
     s.phase = .fault ∧ s.port = some 0x000#11 ∧ s.host.head? ≠ some .reset ∧ ∃ t, step s = .next t) :=
  ⟨rfl, rfl, rfl, by decide, _, rfl⟩

theorem witness_Push : (idleAt 0 none []).phase = .idle ∧ (idleAt 0 none []).cnt.val = (0 : Fin 64).val ∧
    (idleAt 63 none []).cnt.val = (63 : Fin 64).val ∧ (idleAt 64 none []).cnt = 64 := by decide

theorem witness_Start : (idleAt 64 none []).phase = .idle ∧ (idleAt 64 none []).cnt = 64 ∧
    (idleAt 63 none []).phase = .idle ∧ (idleAt 63 none []).cnt ≠ 64 := by decide

theorem witness_Reads : (idleAt 0 none []).phase = .idle := rfl

theorem witness_Deser : let s := busyAt 0x00f#9 none []
    s.phase = .busy ∧ s.seq = BitVec.ofNat 9 (15 : Fin 16).val ∧ (15 : Fin 64).val = (15 : Fin 16).val ∧
    (0 : Fin 64).val ≠ (15 : Fin 16).val := by decide

theorem witness_Expand : let s := busyAt 0x050#9 none []
    16 ≤ (16 : Fin 64).val ∧ s.phase = .busy ∧ s.seq = BitVec.ofNat 9 (0x040 + (16 : Fin 64).val) ∧
    (0 : Fin 64).val + 16 = (16 : Fin 64).val ∧ (1 : Fin 64).val + 15 = (16 : Fin 64).val ∧
    (9 : Fin 64).val + 7 = (16 : Fin 64).val ∧ (14 : Fin 64).val + 2 = (16 : Fin 64).val := by decide

theorem witness_Wvinit : let s := busyAt 0x080#9 none []
    s.phase = .busy ∧ s.seq = 0x080#9 := by decide

theorem witness_Round : let s := busyAt 0x0ff#9 none []
    s.phase = .busy ∧ s.seq = BitVec.ofNat 9 (0x0C0 + (63 : Fin 64).val) := by decide

theorem witness_Addback : let s := busyAt 0x100#9 none []
    s.phase = .busy ∧ s.seq = 0x100#9 := by decide

theorem witness_IllFormedExpand : (15 : Fin 64).val < 16 := by decide

theorem witness_OnlyStartAndPush : (idleAt 63 none []).phase ≠ .fault ∧ (idleAt 63 none []).cnt ≠ 64 ∧
    (∃ t, exec .start (idleAt 63 none []) = .next t ∧ t.phase = .fault) ∧ (idleAt 64 none []).cnt = 64 ∧
    (∃ t, exec (.push 1#8) (idleAt 64 none []) = .next t ∧ t.phase = .fault) ∧
    (∃ t, exec .init (idleAt 64 none []) = .next t) :=
  ⟨by decide, by decide, ⟨_, rfl, rfl⟩, rfl, ⟨_, rfl, rfl⟩, _, rfl⟩

theorem witness_FaultEntry : (idleAt 0 none []).phase = .idle ∧
    ∃ t, exec .start (idleAt 0 none []) = .next t ∧ t.phase = .fault := ⟨rfl, _, rfl, rfl⟩

theorem witness_HashWritten_init : ∃ t, step { idleAt 0 none [.present 0x000#11] with hash := abcHash } = .next t ∧
    t.hash ≠ abcHash := ⟨_, rfl, by decide⟩

theorem witness_HashWritten_addback : ∃ t, step { busyAt 0x100#9 none [] with work := abcWork } = .next t ∧
    t.hash ≠ IV := ⟨_, rfl, by decide⟩

theorem witness_HashWritten_reset : ∃ t, step { idleAt 0 none [.reset] with hash := abcHash } = .next t ∧
    t.hash ≠ abcHash := ⟨_, rfl, by decide⟩

theorem witness_Phase_reset : ∃ t, step (faultAt none [.reset]) = .next t ∧ t.phase ≠ .fault := ⟨_, rfl, by decide⟩

theorem witness_Phase_start : ∃ t, step (idleAt 64 none [.present 0x200#11]) = .next t ∧ t.phase ≠ .idle :=
  ⟨_, rfl, by decide⟩

theorem witness_Phase_addback : ∃ t, step (busyAt 0x100#9 none []) = .next t ∧ t.phase ≠ .busy := ⟨_, rfl, by decide⟩

theorem witness_Phase_fault : ∃ t, step (idleAt 64 (some 0x1ff#11) []) = .next t ∧ t.phase ≠ .idle := ⟨_, rfl, by decide⟩

theorem witness_Cnt_push : ∃ t, step (idleAt 63 none [.present 0x100#11]) = .next t ∧ t.cnt ≠ 63 := ⟨_, rfl, by decide⟩

theorem witness_Cnt_cleared : (∃ t, step (idleAt 3 none [.present 0x000#11]) = .next t ∧ t.cnt ≠ 3) ∧
    (∃ t, step (busyAt 0x100#9 none []) = .next t ∧ t.cnt ≠ 64) := ⟨⟨_, rfl, by decide⟩, _, rfl, by decide⟩

theorem witness_Fcause : (∃ t, step (idleAt 0 none [.present 0x200#11]) = .next t ∧ t.fcause ≠ none) ∧
    (∃ t, step (faultAt none [.reset]) = .next t ∧ t.fcause ≠ some .underrun) := ⟨⟨_, rfl, by decide⟩, _, rfl, by decide⟩

theorem witness_AtMostOneResponse : ∃ t, step (idleAt 0 none [.present 0x300#11]) = .next t := ⟨_, rfl⟩

theorem witness_Invariant : (busyAt 0x0c0#9 none []).Inv ∧ (∃ t, step (busyAt 0x0c0#9 none []) = .next t) ∧
    (faultAt none []).Inv := ⟨by decide, ⟨_, rfl⟩, by decide⟩

theorem witness_StartRuns : let s := busyAt 0x000#9 none [.present 0x300#11, .quiet]
    s.phase = .busy ∧ s.seq = 0x000#9 ∧ HostAct.reset ∉ s.host ∧ s.LegalHost ∧ microOrder[129]? = some .addback ∧
    microOrder[16]? = some (.expand 16) := by decide

theorem witness_PushedBytes : let s := idleAt 0 none [.present 0x161#11, .present 0x162#11, .reset]
    [0x61#8, 0x62#8].length ≤ 64 ∧ s.phase = .idle ∧ s.port = none ∧ s.cnt = 0 ∧
    s.host = presentAll ([0x61#8, 0x62#8].map Instr.push) ++ [.reset] := by decide

theorem witness_StartCompresses_presented : let s := idleAt 64 none [.present 0x200#11, .await, .present 0x300#11]
    s.phase = .idle ∧ s.cnt = 64 ∧ (s.port = none ∧ s.host.head? = some (.present 0x200#11)) ∧
    HostAct.reset ∉ s.host ∧ s.LegalHost := by decide

theorem witness_StartCompresses_port : let s := idleAt 64 (some 0x200#11) [.present 0x300#11]
    s.phase = .idle ∧ s.cnt = 64 ∧ s.port = some 0x200#11 ∧ HostAct.reset ∉ s.host ∧ s.LegalHost := by decide

theorem witness_EveryBlock : let s := busyAt 0x0ff#9 (some 0x300#11) [.await, .present 0x200#11]
    s.Inv ∧ s.phase = .busy ∧ HostAct.reset ∉ s.host ∧ s.LegalHost := by decide

theorem witness_UnspecifiedStorage : let s := idleAt 0 none [.present 0x000#11]
    let t := { s with work := abcWork, seq := 0x1ff#9, buf := abcBlock, freeIdx := 7 }
    s.SameSpecified t ∧ s.phase ≠ .busy :=
  ⟨⟨rfl, rfl, rfl, rfl, rfl, rfl, rfl, fun p h => absurd h (Nat.not_lt_zero _)⟩, by decide⟩

theorem witness_HashCommands_awaited : let s := idleAt 0 none (issueAll (hashCommands []))
    ([] : List Byte).length < 2 ^ 61 ∧ s.phase = .idle ∧ s.port = none ∧ s.host = issueAll (hashCommands []) :=
  ⟨by decide, rfl, rfl, rfl⟩

theorem witness_HashCommands_early : let s := idleAt 0 none (presentAll (hashCommands []))
    ([] : List Byte).length < 2 ^ 61 ∧ s.phase = .idle ∧ s.port = none ∧ s.host = presentAll (hashCommands []) :=
  ⟨by decide, rfl, rfl, rfl⟩

theorem witness_Rotr : (1 ≤ 7 ∧ 7 ≤ 31 ∧ 31 < 32) ∧ (1 ≤ 31 ∧ 31 ≤ 31 ∧ 0 < 32) := by decide

theorem witness_Shr : (3 = 3 ∨ 3 = 10) ∧ (10 = 3 ∨ 10 = 10) := by decide

theorem witness_BitPosition : 0 < 32 ∧ 31 < 32 := by decide

theorem witness_BigEndian : be32 1#8 2#8 3#8 4#8 = be32 1#8 2#8 3#8 4#8 ∧ (61 : Fin 64).val = (60 : Fin 64).val + 1 ∧
    (62 : Fin 64).val = (60 : Fin 64).val + 2 ∧ (63 : Fin 64).val = (60 : Fin 64).val + 3 := by decide

theorem witness_Schedule : (15 : Fin 64).val = (15 : Fin 16).val ∧ (47 : Fin 64).val + 16 = (63 : Fin 64).val ∧
    (48 : Fin 64).val + 15 = (63 : Fin 64).val ∧ (56 : Fin 64).val + 7 = (63 : Fin 64).val ∧
    (61 : Fin 64).val + 2 = (63 : Fin 64).val := by decide

theorem witness_DigestViews : (62 : Fin 64).val = 2 * (31 : Fin 32).val ∧ (63 : Fin 64).val = 2 * (31 : Fin 32).val + 1 ∧
    digestBytes IV = digestBytes IV ∧ digestHex IV = digestHex IV := ⟨by decide, by decide, rfl, rfl⟩

theorem witness_HexDigit : (digestHex IV)[63]? = some 0x39#8 := by decide

end Sys2Proof.Tests
end

section
/-! Encoding (R71, R78): each decoder is the inverse of the encoder, so a row of the opcode map is an equation between
the encoder's word and the word read; the legal words of both formats, counted row by row. -/

namespace Sys2Proof

/-! ### A word decodes to the instruction it encodes, and to no other -/

@[simp] theorem decodeCommand_push (d : Byte) : decodeCommand (commandWord 1#3 d) = .ok (.push d) := by
  have hd := d.isLt
  have hv : (commandWord 1#3 d).toNat = 256 + d.toNat := by simp [commandWord_toNat]
  have ha : commandArg (commandWord 1#3 d) = d := BitVec.eq_of_toNat_eq (by rw [commandArg_toNat, hv]; omega)
  rw [decodeCommand_eq, hv, if_neg (by omega), if_pos (by omega), ha]

@[simp] theorem decodeCommand_rdb (k : Fin 32) :
    decodeCommand (commandWord 3#3 (BitVec.ofNat 8 k.val)) = .ok (.rdb k) := by
  have hv : (commandWord 3#3 (BitVec.ofNat 8 k.val)).toNat = 768 + k.val := by
    simp only [commandWord_toNat, BitVec.toNat_ofNat]
    omega
  have hk : Fin.ofNat 32 ((768 + k.val) % 256) = k := Fin.ext (by simp only [Fin.ofNat]; omega)
  rw [decodeCommand_eq, hv, if_neg (by omega), if_neg (by omega), if_neg (by omega), if_pos (by omega), hk]

@[simp] theorem decodeCommand_rdh (n : Fin 64) :
    decodeCommand (commandWord 4#3 (BitVec.ofNat 8 n.val)) = .ok (.rdh n) := by
  have hv : (commandWord 4#3 (BitVec.ofNat 8 n.val)).toNat = 1024 + n.val := by
    simp only [commandWord_toNat, BitVec.toNat_ofNat]
    omega
  have hn : Fin.ofNat 64 ((1024 + n.val) % 256) = n := Fin.ext (by simp only [Fin.ofNat]; omega)
  rw [decodeCommand_eq, hv, if_neg (by omega), if_neg (by omega), if_neg (by omega), if_neg (by omega),
    if_pos (by omega), hn]

/-- Format C: the words that decode are those the encoder gives. -/
theorem decodeCommand_eq_ok_iff {w : CommandWord} {i : Instr} :
    decodeCommand w = .ok i ↔ encode i = .command w := by
  constructor
  · intro h
    rcases decodeCommand_cases h with ⟨rfl, rfl⟩ | ⟨_, rfl, rfl⟩ | ⟨rfl, rfl⟩ | ⟨_, rfl, rfl⟩ | ⟨_, rfl, rfl⟩ <;> rfl
  · intro h
    cases i with
    | init => cases h; decide
    | push d => cases h; exact decodeCommand_push d
    | start => cases h; decide
    | rdb k => cases h; exact decodeCommand_rdb k
    | rdh n => cases h; exact decodeCommand_rdh n
    | deser | expand | wvinit | round | addback => cases h

/-- Format U: the values of `SEQ` that decode are those the encoder gives for well-formed instructions. -/
theorem decodeMicro_eq_ok_iff {w : SeqWord} {i : Instr} :
    decodeMicro w = .ok i ↔ i.wf = true ∧ encode i = .seq w := by
  constructor
  · intro h
    rcases decodeMicro_cases h with
      ⟨_, rfl, rfl⟩ | ⟨_, hk, rfl, rfl⟩ | ⟨rfl, rfl⟩ | ⟨_, rfl, rfl⟩ | ⟨rfl, rfl⟩
    case inr.inl => exact ⟨decide_eq_true hk, rfl⟩
    all_goals exact ⟨rfl, rfl⟩
  · rintro ⟨hwf, h⟩
    cases i with
    | init | push | start | rdb | rdh => cases h
    | deser j => cases h; exact decodeMicro_seqDeser j
    | expand k => cases h; exact decodeMicro_seqExpand k (of_decide_eq_true hwf)
    | wvinit => cases h; exact decodeMicro_seqWvinit
    | round k => cases h; exact decodeMicro_seqRound k
    | addback => cases h; exact decodeMicro_seqAddback

/-! ### The rows of format C (R71) -/

section
variable (w : CommandWord)

theorem decodeCommand_eq_init_iff : decodeCommand w = .ok .init ↔ w &&& 0x7FF#11 = 0x000#11 := by
  rw [decodeCommand_eq_ok_iff, initRow_iff]
  simp only [encode, CodeWord.command.injEq, ← BitVec.toNat_inj, commandWord_toNat, BitVec.toNat_ofNat]
  omega

theorem decodeCommand_eq_push_iff (d : Byte) :
    decodeCommand w = .ok (.push d) ↔ w &&& 0x700#11 = 0x100#11 ∧ w.toNat % 256 = d.toNat := by
  rw [decodeCommand_eq_ok_iff, pushRow_iff]
  simp only [encode, CodeWord.command.injEq, ← BitVec.toNat_inj, commandWord_toNat, BitVec.toNat_ofNat]
  omega

theorem decodeCommand_eq_start_iff : decodeCommand w = .ok .start ↔ w &&& 0x7FF#11 = 0x200#11 := by
  rw [decodeCommand_eq_ok_iff, startRow_iff]
  simp only [encode, CodeWord.command.injEq, ← BitVec.toNat_inj, commandWord_toNat, BitVec.toNat_ofNat]
  omega

theorem decodeCommand_eq_rdb_iff (k : Fin 32) :
    decodeCommand w = .ok (.rdb k) ↔ w &&& 0x7E0#11 = 0x300#11 ∧ w.toNat % 32 = k.val := by
  rw [decodeCommand_eq_ok_iff, rdbRow_iff]
  simp only [encode, CodeWord.command.injEq, ← BitVec.toNat_inj, commandWord_toNat, BitVec.toNat_ofNat]
  omega

theorem decodeCommand_eq_rdh_iff (n : Fin 64) :
    decodeCommand w = .ok (.rdh n) ↔ w &&& 0x7C0#11 = 0x400#11 ∧ w.toNat % 64 = n.val := by
  rw [decodeCommand_eq_ok_iff, rdhRow_iff]
  simp only [encode, CodeWord.command.injEq, ← BitVec.toNat_inj, commandWord_toNat, BitVec.toNat_ofNat]
  omega

end

/-! ### The rows of format U (R78) -/

section
variable (w : SeqWord)

theorem decodeMicro_eq_deser_iff (j : Fin 16) :
    decodeMicro w = .ok (.deser j) ↔ w &&& 0x1F0#9 = 0x000#9 ∧ w.toNat % 16 = j.val := by
  rw [decodeMicro_eq_ok_iff, deserRow_iff]
  simp only [Instr.wf, true_and, encode, CodeWord.seq.injEq, seqDeser, ← BitVec.toNat_inj, seqWord_toNat,
    BitVec.toNat_ofNat]
  omega

theorem decodeMicro_eq_expand_iff (i : Fin 64) : decodeMicro w = .ok (.expand i) ↔
    w &&& 0x1C0#9 = 0x040#9 ∧ 16 ≤ i.val ∧ w.toNat % 64 = i.val := by
  rw [decodeMicro_eq_ok_iff, expandRow_iff]
  simp only [Instr.wf, encode, CodeWord.seq.injEq, seqExpand, ← BitVec.toNat_inj, seqWord_toNat, BitVec.toNat_ofNat,
    decide_eq_true_iff]
  omega

theorem decodeMicro_eq_wvinit_iff : decodeMicro w = .ok .wvinit ↔ w &&& 0x1FF#9 = 0x080#9 := by
  rw [decodeMicro_eq_ok_iff, wvinitRow_iff]
  simp only [Instr.wf, true_and, encode, CodeWord.seq.injEq, seqWvinit, ← BitVec.toNat_inj, seqWord_toNat,
    BitVec.toNat_ofNat]
  omega

theorem decodeMicro_eq_round_iff (i : Fin 64) :
    decodeMicro w = .ok (.round i) ↔ w &&& 0x1C0#9 = 0x0C0#9 ∧ w.toNat % 64 = i.val := by
  rw [decodeMicro_eq_ok_iff, roundRow_iff]
  simp only [Instr.wf, true_and, encode, CodeWord.seq.injEq, seqRound, ← BitVec.toNat_inj, seqWord_toNat,
    BitVec.toNat_ofNat]
  omega

theorem decodeMicro_eq_addback_iff : decodeMicro w = .ok .addback ↔ w &&& 0x1FF#9 = 0x100#9 := by
  rw [decodeMicro_eq_ok_iff, addbackRow_iff]
  simp only [Instr.wf, true_and, encode, CodeWord.seq.injEq, seqAddback, ← BitVec.toNat_inj, seqWord_toNat,
    BitVec.toNat_ofNat]
  omega

end

/-! ### How many words are legal -/

/-- The legal words of format C as ranges of numbers. -/
theorem legalCommand_iff (w : CommandWord) : legalCommand w = true ↔
    w.toNat = 0 ∨ w.toNat / 256 = 1 ∨ w.toNat = 512 ∨ w.toNat / 32 = 24 ∨ w.toNat / 64 = 16 := by
  rw [legalCommand, decodeCommand_eq]
  split_ifs <;> simp [*]

/-- The legal values of `SEQ` as ranges of numbers. -/
theorem legalSeq_iff (w : SeqWord) : legalSeq w = true ↔
    w.toNat < 16 ∨ (w.toNat / 64 = 1 ∧ 16 ≤ w.toNat % 64) ∨ w.toNat = 128 ∨ w.toNat / 64 = 3 ∨ w.toNat = 256 := by
  rw [legalSeq, decodeMicro_eq]
  split_ifs <;> simp [*]

section
variable {p : Nat → Prop} [DecidablePred p] {b : Nat} (a : Nat)

/-- A stretch of numbers that all count adds its length. -/
theorem countP_range_of_forall (hab : a ≤ b) (h : ∀ n, a ≤ n → n < b → p n) :
    (List.range b).countP (p ·) = (List.range a).countP (p ·) + (b - a) := by
  induction b, hab using Nat.le_induction with
  | base => simp
  | succ b hab ih =>
    have hb : p b := h b hab (Nat.lt_succ_self b)
    rw [List.range_succ, List.countP_append, ih fun n h1 h2 => h n h1 (by omega), List.countP_singleton,
      if_pos (decide_eq_true hb)]
    omega

/-- A stretch of numbers none of which counts adds nothing. -/
theorem countP_range_of_forall_not (hab : a ≤ b) (h : ∀ n, a ≤ n → n < b → ¬ p n) :
    (List.range b).countP (p ·) = (List.range a).countP (p ·) := by
  induction b, hab using Nat.le_induction with
  | base => rfl
  | succ b hab ih =>
    have hb : ¬ p b := h b hab (Nat.lt_succ_self b)
    rw [List.range_succ, List.countP_append, ih fun n h1 h2 => h n h1 (by omega), List.countP_singleton,
      if_neg (by simpa using hb), Nat.add_zero]

end

/-- From the last row to the first: 64 words of `RDH`, 32 of `RDB`, one of `START` next to the 256 of `PUSH`, one of
`INIT`. -/
theorem countP_legalCommand : (List.range 2048).countP (fun n => legalCommand (BitVec.ofNat 11 n)) = 354 := by
  have hrows : ∀ n ∈ List.range 2048, legalCommand (BitVec.ofNat 11 n) = true ↔
      decide (n = 0 ∨ n / 256 = 1 ∨ n = 512 ∨ n / 32 = 24 ∨ n / 64 = 16) = true := fun n hn => by
    rw [legalCommand_iff, BitVec.toNat_ofNat, Nat.mod_eq_of_lt (List.mem_range.mp hn), decide_eq_true_iff]
  rw [List.countP_congr hrows, countP_range_of_forall_not 1088, countP_range_of_forall 1024,
    countP_range_of_forall_not 800, countP_range_of_forall 768, countP_range_of_forall_not 513,
    countP_range_of_forall 256, countP_range_of_forall_not 1, countP_range_of_forall 0]
  · rfl
  all_goals (intros; omega)

/-- From the last row to the first: `ADDBACK` next to the 64 values of `ROUND`, `WVINIT` next to the 48 of `EXPAND`, 16
of `DESER`. -/
theorem countP_legalSeq : (List.range 512).countP (fun n => legalSeq (BitVec.ofNat 9 n)) = 130 := by
  have hrows : ∀ n ∈ List.range 512, legalSeq (BitVec.ofNat 9 n) = true ↔
      decide (n < 16 ∨ n / 64 = 1 ∧ 16 ≤ n % 64 ∨ n = 128 ∨ n / 64 = 3 ∨ n = 256) = true := fun n hn => by
    rw [legalSeq_iff, BitVec.toNat_ofNat, Nat.mod_eq_of_lt (List.mem_range.mp hn), decide_eq_true_iff]
  rw [List.countP_congr hrows, countP_range_of_forall_not 257, countP_range_of_forall 192,
    countP_range_of_forall_not 129, countP_range_of_forall 80, countP_range_of_forall_not 16,
    countP_range_of_forall 0]
  · rfl
  all_goals (intros; omega)

end Sys2Proof

namespace Sys2Proof.Machine

/-- Settles O3: each row by the encoder's word, the count by ranges. -/
theorem commandRowsByMaskAndMatch : Obligations.CommandRowsByMaskAndMatch :=
  ⟨fun w => ⟨decodeCommand_eq_init_iff w, decodeCommand_eq_push_iff w, decodeCommand_eq_start_iff w,
    decodeCommand_eq_rdb_iff w, decodeCommand_eq_rdh_iff w⟩, countP_legalCommand⟩

/-- Settles O5: each row by the encoder's word, the count by ranges, the step by the host's act, which moves only the
port and the host's list. -/
theorem sequencerRowsByMaskAndMatch : Obligations.SequencerRowsByMaskAndMatch :=
  ⟨fun w => ⟨decodeMicro_eq_deser_iff w, decodeMicro_eq_expand_iff w, decodeMicro_eq_wvinit_iff w,
    decodeMicro_eq_round_iff w, decodeMicro_eq_addback_iff w⟩, countP_legalSeq,
    fun s i hp hr hl hd => ⟨_, _, (step_of_busy hp hr hl hd).trans (congrArg (exec i) (hostActs_eq s))⟩⟩

end Sys2Proof.Machine
end

section
/-! The order of the micro-operations of a block (R79): the positions of the sequencer name them in that order, and a
block reaches every position. -/

namespace Sys2Proof.Machine

/-! ### The order, position by position -/

@[simp] theorem microOrder_length : microOrder.length = 130 := by simp [microOrder]

theorem microOrder_deser {k : Nat} (h : k < 16) : microOrder[k]? = some (.deser (Fin.ofNat 16 k)) := by
  simp [microOrder, List.getElem?_append, h, Fin.ext_iff, Nat.mod_eq_of_lt h]

theorem microOrder_expand {k : Nat} (h16 : 16 ≤ k) (h : k < 64) :
    microOrder[k]? = some (.expand (Fin.ofNat 64 k)) := by
  obtain ⟨j, rfl⟩ := Nat.exists_eq_add_of_le h16
  have hj : j < 48 := by omega
  simp [microOrder, List.getElem?_append, hj, Fin.ext_iff, Nat.mod_eq_of_lt h]

theorem microOrder_round {k : Nat} (h65 : 65 ≤ k) (h : k < 129) :
    microOrder[k]? = some (.round (Fin.ofNat 64 (k - 65))) := by
  obtain ⟨j, rfl⟩ := Nat.exists_eq_add_of_le h65
  have hj : j < 64 := by omega
  simp [microOrder, List.getElem?_append, show ¬ 65 + j < 16 by omega, show ¬ 65 + j - 16 < 48 by omega,
    show 65 + j - 16 - 48 = j + 1 by omega, hj, Fin.ext_iff, Nat.mod_eq_of_lt hj]

/-- The `k`-th micro-operation of the order is the one `SEQ` names at position `k`. -/
theorem decodeMicro_seqAt {k : Nat} {i : Instr} (h : microOrder[k]? = some i) : decodeMicro (seqAt k) = .ok i := by
  obtain ⟨hk, -⟩ := List.getElem?_eq_some_iff.mp h
  rw [microOrder_length] at hk
  unfold seqAt
  split_ifs with h1 h2 h3 h4
  · rw [microOrder_deser h1] at h
    cases h
    exact decodeMicro_seqDeser _
  · rw [microOrder_expand (by omega) h2] at h
    cases h
    exact decodeMicro_seqExpand _ (by simp only [Fin.ofNat]; omega)
  · subst h3
    cases h
    exact decodeMicro_seqWvinit
  · rw [microOrder_round (by omega) h4] at h
    cases h
    exact decodeMicro_seqRound _
  · obtain rfl : k = 129 := by omega
    cases h
    exact decodeMicro_seqAddback

/-! ### The block reaches every position -/

/-- A run of `n` steps, then one more. -/
theorem runSteps_succ_of_last {s t u : State} {n : Nat} (h : runSteps n s = .next t) (hu : step t = .next u) :
    runSteps (n + 1) s = .next u := by
  rw [runSteps_add_of_next 1 h, runSteps_succ_of_next 0 hu, runSteps_zero]

/-- A `BUSY` core at `DESER 0` stands at the first position of the block it begins. -/
theorem BlockAt.zero {s : State} (hp : s.phase = .busy) (hq : s.seq = 0x000#9) (hr : HostAct.reset ∉ s.host)
    (hg : s.LegalHost) : BlockAt s 0 s where
  phase := hp
  seq := hq
  hash := rfl
  buf := rfl
  cnt := rfl
  fcause := rfl
  responses := rfl
  noReset := hr
  legalHost := hg
  sched := fun _ hlt => absurd hlt (Nat.not_lt_zero _)
  work := fun hle => absurd hle (by decide)

/-- Every position of a block is reached, the `k`-th after `k` steps. -/
theorem BlockAt.run {s : State} (h : BlockAt s 0 s) {k : Nat} (hk : k ≤ 129) :
    ∃ t, runSteps k s = .next t ∧ BlockAt s k t := by
  induction k with
  | zero => exact ⟨s, rfl, h⟩
  | succ k ih =>
    obtain ⟨t, ht, hb⟩ := ih (by omega)
    obtain ⟨u, hu, hb'⟩ := hb.succ (by omega)
    exact ⟨u, runSteps_succ_of_last ht hu, hb'⟩

/-- The step at the last position of a block is `ADDBACK`. -/
theorem BlockAt.step_last {s u : State} (h : BlockAt s 129 u) : step u = exec .addback u.hostActs :=
  step_of_busy h.phase (head_ne_reset h.noReset) (reservedWord_of_legalHost h.legalHost)
    (h.seq ▸ decodeMicro_seqAddback)

/-- Settles O37, by the invariant of a block at each of its positions, and `ADDBACK` after the last. -/
theorem startRunsThe130MicroOperationsInOrder : Obligations.StartRunsThe130MicroOperationsInOrder := by
  refine ⟨microOrder_length, fun s _ hc => ⟨_, exec_start_of_full hc, rfl, rfl, rfl⟩, fun s hp hq hr hg => ?_⟩
  have hb := BlockAt.zero hp hq hr hg
  constructor
  · intro k i hi
    obtain ⟨hk, -⟩ := List.getElem?_eq_some_iff.mp hi
    rw [microOrder_length] at hk
    obtain ⟨t, ht, hbt⟩ := hb.run (k := k) (by omega)
    exact ⟨t, ht, hbt.phase, hbt.seq ▸ decodeMicro_seqAt hi⟩
  · obtain ⟨t, ht, hbt⟩ := hb.run (Nat.le_refl 129)
    exact ⟨_, runSteps_succ_of_last ht hbt.step_last, rfl⟩

end Sys2Proof.Machine
end

section
/-! The combinational functions bit by bit (R94 to R101): what each puts at one position of its word. -/

namespace Sys2Proof.Machine

/-! ### Rotation and shift -/

/-- The rotation of R94 is the library's, for the amounts the rule allows. -/
theorem rotr_eq_rotateRight (x : Word) {n : Nat} (hn : n < 32) : rotr x n = x.rotateRight n := by
  rw [BitVec.rotateRight_def, Nat.mod_eq_of_lt hn, rotr]

/-- Below position `32 - n` the bit comes from further up the word, from there on it has come round from its low end. -/
theorem rotr_getLsbD (x : Word) {n k : Nat} (hn : n < 32) (hk : k < 32) :
    (rotr x n).getLsbD k = x.getLsbD ((k + n) % 32) := by
  rw [rotr_eq_rotateRight x hn, BitVec.getLsbD_rotateRight, Nat.mod_eq_of_lt hn, Bool.cond_decide]
  by_cases hlow : k < 32 - n
  · rw [if_pos hlow, show (k + n) % 32 = n + k by omega]
  · rw [if_neg hlow, show (k + n) % 32 = k - (32 - n) by omega, decide_eq_true hk, Bool.true_and]

@[simp] theorem shr_toNat (x : Word) (n : Nat) : (shr x n).toNat = x.toNat / 2 ^ n := by
  rw [shr, BitVec.toNat_ushiftRight, Nat.shiftRight_eq_div_pow]

/-- A bit that would come from above bit 31 is zero. -/
theorem shr_getLsbD (x : Word) (n k : Nat) :
    (shr x n).getLsbD k = (decide (k + n < 32) && x.getLsbD (k + n)) := by
  rw [shr, BitVec.getLsbD_ushiftRight, Nat.add_comm n k]
  by_cases h : k + n < 32
  · simp [h]
  · simp [h, BitVec.getLsbD_of_ge x (k + n) (Nat.le_of_not_lt h)]

/-- Settles O43: the rotation is the library's, and its bit is read on either side of the position where it wraps. -/
theorem rotrMovesEveryBit : Obligations.RotrMovesEveryBit :=
  fun x _ _ _ hn hk => rotr_getLsbD x (Nat.lt_succ_of_le hn) hk

/-- Settles O44: a right shift is a division, for these two amounts as for every other. -/
theorem shrIsFloorDivision : Obligations.ShrIsFloorDivision := fun x n _ => shr_toNat x n

/-! ### The four sigma functions -/

section
variable (x : Word) {k : Nat} (hk : k < 32)
include hk

/-- Bit `k` of an exclusive or of two rotations and a shift: what `ssig0` and `ssig1` both are. -/
theorem rotr_xor_rotr_xor_shr_getLsbD {l m : Nat} (n : Nat) (hl : l < 32) (hm : m < 32) :
    (rotr x l ^^^ rotr x m ^^^ shr x n).getLsbD k =
      (x.getLsbD ((k + l) % 32) ^^ x.getLsbD ((k + m) % 32) ^^ (decide (k + n < 32) && x.getLsbD (k + n))) := by
  rw [BitVec.getLsbD_xor, BitVec.getLsbD_xor, rotr_getLsbD x hl hk, rotr_getLsbD x hm hk, shr_getLsbD]

/-- Bit `k` of an exclusive or of three rotations: what `bsig0` and `bsig1` both are. -/
theorem rotr_xor_rotr_xor_rotr_getLsbD {l m n : Nat} (hl : l < 32) (hm : m < 32) (hn : n < 32) :
    (rotr x l ^^^ rotr x m ^^^ rotr x n).getLsbD k =
      (x.getLsbD ((k + l) % 32) ^^ x.getLsbD ((k + m) % 32) ^^ x.getLsbD ((k + n) % 32)) := by
  rw [BitVec.getLsbD_xor, BitVec.getLsbD_xor, rotr_getLsbD x hl hk, rotr_getLsbD x hm hk, rotr_getLsbD x hn hk]

end

/-- Settles O47: each function is by definition one of the two sums, at its own amounts. -/
theorem sigmaFunctionsBitByBit : Obligations.SigmaFunctionsBitByBit := fun x _ hk =>
  ⟨rotr_xor_rotr_xor_shr_getLsbD x hk 3 (by decide) (by decide),
    rotr_xor_rotr_xor_shr_getLsbD x hk 10 (by decide) (by decide),
    rotr_xor_rotr_xor_rotr_getLsbD x hk (by decide) (by decide) (by decide),
    rotr_xor_rotr_xor_rotr_getLsbD x hk (by decide) (by decide) (by decide)⟩

/-! ### Choice and majority -/

theorem ch_getLsbD (e f g : Word) {k : Nat} (hk : k < 32) :
    (ch e f g).getLsbD k = if e.getLsbD k then f.getLsbD k else g.getLsbD k := by
  have hbit : (ch e f g).getLsbD k = ((e.getLsbD k && f.getLsbD k) ^^ (!e.getLsbD k && g.getLsbD k)) := by
    simp [ch, hk]
  rw [hbit]
  cases e.getLsbD k with
  | true => simp
  | false => simp

/-- Settles O45, by the two values of the bit of `e`. -/
theorem chChoosesBitByBit : Obligations.ChChoosesBitByBit := fun e f g _ hk => ch_getLsbD e f g hk

theorem maj_getLsbD (a b c : Word) (k : Nat) : (maj a b c).getLsbD k =
    ((a.getLsbD k && b.getLsbD k) ^^ (a.getLsbD k && c.getLsbD k) ^^ (b.getLsbD k && c.getLsbD k)) := by
  simp only [maj, BitVec.getLsbD_xor, BitVec.getLsbD_and]

/-- The exclusive or of the three pairs is the majority: two bits set leave one pair, three set leave all three. -/
theorem xor_pairs_eq_true_iff (a b c : Bool) :
    ((a && b) ^^ (a && c) ^^ (b && c)) = true ↔ 2 ≤ a.toNat + b.toNat + c.toNat := by
  revert a b c
  decide

/-- Settles O46, by the majority of three bits. -/
theorem majIsTheMajorityBit : Obligations.MajIsTheMajorityBit := fun a b c k _ => by
  rw [maj_getLsbD]
  exact xor_pairs_eq_true_iff _ _ _

end Sys2Proof.Machine
end

section
/-! Host commands (R110, R111): the code word of `PUSH d` as a number, the index it writes, what `INIT` does, and what a
step in `FAULT` without a reset answers; with the laws of `exec` they give the effect of `INIT` and `PUSH`. -/

namespace Sys2Proof.Machine

/-- The word of `PUSH d` as a number (R71). -/
theorem commandWord_push_eq_ofNat (d : Byte) : commandWord 1#3 d = BitVec.ofNat 11 (0x100 + d.toNat) := by
  have hd := d.isLt
  apply BitVec.eq_of_toNat_eq
  simp only [commandWord_toNat, BitVec.toNat_ofNat]
  omega

/-- Where `PUSH` writes is the index that `CNT` names (R62). -/
theorem pushIndex_of_val_eq {c : Fin 65} {p : Fin 64} (h : c.val = p.val) : pushIndex c = some p := by
  rw [pushIndex_of_lt (h ▸ p.isLt)]
  exact congrArg some (Fin.ext h)

theorem exec_init (s : State) : exec .init s = .next (((s.writeHash IV).writeCnt 0).respond .ack) := rfl

/-- In `FAULT` a step that is no reset is the host's act alone (R185). -/
theorem eq_hostActs_of_step_of_fault {s t : State} (hp : s.phase = .fault) (hr : s.host.head? ≠ some .reset)
    (h : step s = .next t) : t = s.hostActs := by
  rw [step_of_fault hp hr (reservedWord_of_next h hr)] at h
  cases h
  rfl

/-- Settles O14: in `IDLE` the meaning itself, in `FAULT` by the host's act, which moves only the port and the host's
list. -/
theorem initLoadsInitialValues : Obligations.InitLoadsInitialValues := by
  refine ⟨by decide, fun s _ => exec_init s, fun s t hp _ hr h => ?_⟩
  obtain rfl := eq_hostActs_of_step_of_fault hp hr h
  exact ⟨(hostActs_phase s).trans hp, hostActs_hash s, hostActs_cnt s, hostActs_responses s⟩

/-- Settles O15: the word by the encoder's word; below 64 bytes the byte goes to the index `CNT` names, with 64 the fault
is raised. -/
theorem pushStoresOneByteOrOverruns : Obligations.PushStoresOneByteOrOverruns := by
  refine ⟨fun d => ?_, fun d s p _ hc => ?_, fun d s _ hc => exec_push_of_full d hc⟩
  · rw [← commandWord_push_eq_ofNat]
    exact decodeCommand_push d
  · refine ⟨_, exec_push_of_lt d hc, pushIndex_of_val_eq hc, ?_, fun q hq => ?_, ?_, rfl, rfl⟩
    · exact readBuf_memWrite_self s p d
    · exact readBuf_memWrite_ne s d hq
    · simp [hc]

end Sys2Proof.Machine
end

section
/-! Deserializer (R120, R121): `be32` and the byte lanes are inverse to each other, the value of `SEQ` of `DESER j` as a
number and the position after it; with `MemRead` of one word they give the effect of `DESER`. -/

namespace Sys2Proof.Machine

/-! ### Words and their bytes (R121) -/

/-- The digits of a number in base 256 are unique. -/
theorem be32_injective {b0 b1 b2 b3 c0 c1 c2 c3 : Byte} (h : be32 b0 b1 b2 b3 = be32 c0 c1 c2 c3) :
    b0 = c0 ∧ b1 = c1 ∧ b2 = c2 ∧ b3 = c3 := by
  have hsum := congrArg BitVec.toNat h
  rw [be32_toNat, be32_toNat] at hsum
  simp only [← BitVec.toNat_inj]
  omega

/-- The byte lanes of a word are its digits in base 256, the first the most significant. -/
theorem be32_byteLane (x : Word) : be32 (byteLane x 0) (byteLane x 1) (byteLane x 2) (byteLane x 3) = x := by
  have hx := x.isLt
  apply BitVec.eq_of_toNat_eq
  rw [be32_toNat]
  simp only [byteLane_toNat, Fin.coe_ofNat_eq_mod, Nat.reduceMod, Nat.reduceSub, Nat.reduceMul, Nat.reducePow]
  omega

/-- `MemRead(p, 4)` by four indices of `BUF` that follow each other without wrapping. -/
theorem memRead_four_of_val_eq (s : State) {p0 p1 p2 p3 : Fin 64} (h1 : p1.val = p0.val + 1)
    (h2 : p2.val = p0.val + 2) (h3 : p3.val = p0.val + 3) :
    s.memRead p0.val 4 = be32 (s.readBuf p0) (s.readBuf p1) (s.readBuf p2) (s.readBuf p3) := by
  rw [memRead_four, ← h1, ← h2, ← h3]
  simp only [Fin.ofNat_val_eq_self]

/-- Settles O49, by the sum of the four bytes, the uniqueness of the digits in base 256, and `MemRead` of one word. -/
theorem bigEndianWordIsABijection : Obligations.BigEndianWordIsABijection :=
  ⟨be32_toNat, fun _ _ _ _ _ _ _ _ => be32_injective, be32_byteLane,
    fun s _ _ _ _ => memRead_four_of_val_eq s⟩

/-! ### `DESER` (R120) -/

/-- The value of `SEQ` of `DESER j` as a number (R78). -/
theorem seqDeser_eq_ofNat (j : Fin 16) : seqDeser j = BitVec.ofNat 9 j.val := by
  apply BitVec.eq_of_toNat_eq
  simp only [seqDeser, seqWord_toNat, BitVec.toNat_ofNat]
  omega

/-- The value of `SEQ` after `DESER j` as a number (R79). -/
theorem nextDeser_eq_ofNat (j : Fin 16) :
    nextDeser j = if j.val < 15 then BitVec.ofNat 9 (j.val + 1) else 0x050#9 := by
  unfold nextDeser
  split
  next hj => rw [seqDeser_eq_ofNat, Fin.val_add_one_of_lt' (by omega)]
  next => rfl

theorem exec_deser (j : Fin 16) (s : State) : exec (.deser j) s =
    .next ((s.writeSched (deserTarget j) (s.memRead (deserBase j) 4)).writeSeq (nextDeser j)) := rfl

/-- Settles O19: the value of `SEQ` by the encoder's word; the word written is the big-endian sum of the four bytes read,
and every other word of `W` is another index. -/
theorem deserFormsInputWord : Obligations.DeserFormsInputWord := by
  refine fun j => ⟨?_, fun s _ _ => ⟨_, exec_deser j s, fun p hp => ?_, fun p hp => ?_, nextDeser_eq_ofNat j, rfl⟩⟩
  · rw [← seqDeser_eq_ofNat]
    exact decodeMicro_seqDeser j
  · obtain rfl : p = deserTarget j := Fin.ext hp
    calc _ = (s.memRead (deserBase j) 4).toNat :=
          congrArg BitVec.toNat (readSched_writeSched_self s (deserTarget j) (s.memRead (deserBase j) 4))
      _ = _ := by
        rw [memRead_four, be32_toNat]
        rfl
  · exact readSched_writeSched_ne s _ fun h => hp (congrArg Fin.val h)

end Sys2Proof.Machine
end

section
/-! Schedule expander (R125): the indices `EXPAND i` reads, the word it derives as a number, the value of its `SEQ` as a
number and the position after it; with the law of `exec` they give the effect of `EXPAND`. -/

namespace Sys2Proof.Machine

/-- The value of `SEQ` of `EXPAND i` as a number (R78). -/
theorem seqExpand_eq_ofNat (i : Fin 64) : seqExpand i = BitVec.ofNat 9 (0x040 + i.val) := by
  apply BitVec.eq_of_toNat_eq
  simp only [seqExpand, seqWord_toNat, BitVec.toNat_ofNat]
  omega

/-- The value of `SEQ` after `EXPAND i` as a number (R79). -/
theorem nextExpand_eq_ofNat (i : Fin 64) :
    nextExpand i = if i.val < 63 then BitVec.ofNat 9 (0x040 + i.val + 1) else 0x080#9 := by
  unfold nextExpand
  split
  next hi => rw [seqExpand_eq_ofNat, Fin.val_add_one_of_lt' (by omega), Nat.add_assoc]
  next => rfl

/-- The index that lies `back` before `i` is the one `EXPAND i` reads (R62). -/
theorem expandSource_of_val_add {i p : Fin 64} {back : Nat} (h : p.val + back = i.val) : expandSource i back = p :=
  Fin.ext (Nat.sub_eq_of_eq_add h.symm)

/-- The word `EXPAND i` derives is the sum of its four terms modulo 2^32 (R125). -/
theorem expandWord_toNat (w : Schedule) {i p16 p15 p7 p2 : Fin 64} (h16 : p16.val + 16 = i.val)
    (h15 : p15.val + 15 = i.val) (h7 : p7.val + 7 = i.val) (h2 : p2.val + 2 = i.val) :
    (expandWord w i).toNat =
      (w[p16].toNat + (ssig0 w[p15]).toNat + w[p7].toNat + (ssig1 w[p2]).toNat) % 2 ^ 32 := by
  simp only [expandWord, expandSource_of_val_add h16, expandSource_of_val_add h15, expandSource_of_val_add h7,
    expandSource_of_val_add h2, BitVec.toNat_add, Nat.mod_add_mod]

/-- Settles O20: the value of `SEQ` by the encoder's word; the word written is the sum of the words read, and every other
word of `W` is another index. -/
theorem expandDerivesScheduleWord : Obligations.ExpandDerivesScheduleWord := by
  refine fun i hi => ⟨?_, fun s _ _ => ⟨_, exec_expand_of_le hi, fun p16 p15 p7 p2 h16 h15 h7 h2 => ?_,
    fun p hp => ?_, nextExpand_eq_ofNat i, rfl⟩⟩
  · rw [← seqExpand_eq_ofNat]
    exact decodeMicro_seqExpand i hi
  · calc _ = (expandWord s.sched i).toNat :=
          congrArg BitVec.toNat (readSched_writeSched_self s i (expandWord s.sched i))
      _ = _ := expandWord_toNat s.sched h16 h15 h7 h2
  · exact readSched_writeSched_ne s _ hp

end Sys2Proof.Machine
end

section
/-! Compression-round engine (R136, R138, R142): the values of `SEQ` of `ROUND i` as numbers, `t1` and `t2` of a round and
the sums of `ADDBACK` modulo 2^32; with what `exec` answers they give the effect of the three micro-operations. -/

namespace Sys2Proof.Machine

/-! ### `WVINIT` (R136) -/

theorem exec_wvinit (s : State) :
    exec .wvinit s = .next ((s.writeWork (workOfHash s.hash)).writeSeq (seqRound 0)) := rfl

/-- Settles O21: the value of `SEQ` by the encoder's word, the effect by the meaning itself. -/
theorem wvinitLoadsWorkingVariables : Obligations.WvinitLoadsWorkingVariables :=
  ⟨decodeMicro_seqWvinit, fun s _ _ => exec_wvinit s⟩

/-! ### `ROUND` (R138) -/

/-- The value of `SEQ` of `ROUND i` as a number (R78). -/
theorem seqRound_eq_ofNat (i : Fin 64) : seqRound i = BitVec.ofNat 9 (0x0C0 + i.val) := by
  apply BitVec.eq_of_toNat_eq
  simp only [seqRound, seqWord_toNat, BitVec.toNat_ofNat]
  omega

/-- The value of `SEQ` after `ROUND i` as a number (R79). -/
theorem nextRound_eq_ofNat (i : Fin 64) :
    nextRound i = if i.val < 63 then BitVec.ofNat 9 (0x0C0 + i.val + 1) else 0x100#9 := by
  unfold nextRound
  split
  next hi => rw [seqRound_eq_ofNat, Fin.val_add_one_of_lt' (by omega), Nat.add_assoc]
  next => rfl

/-- `t1` is the sum of its five terms modulo 2^32 (R138). -/
theorem roundT1_toNat (v : WorkVars) (k w : Word) : (roundT1 v k w).toNat =
    (v.h.toNat + (bsig1 v.e).toNat + (ch v.e v.f v.g).toNat + k.toNat + w.toNat) % 2 ^ 32 := by
  simp only [roundT1, BitVec.toNat_add, Nat.mod_add_mod]

/-- `t2` is the sum of its two terms modulo 2^32 (R138). -/
theorem roundT2_toNat (v : WorkVars) :
    (roundT2 v).toNat = ((bsig0 v.a).toNat + (maj v.a v.b v.c).toNat) % 2 ^ 32 :=
  BitVec.toNat_add _ _

theorem exec_round (i : Fin 64) (s : State) : exec (.round i) s =
    .next ((s.writeWork (compressionRound s.work K[i] (s.readSched i))).writeSeq (nextRound i)) := rfl

/-- Settles O22: the value of `SEQ` by the encoder's word; the new `a` and `e` are the sums with `t1` and `t2`, and the six
other variables move along. -/
theorem roundUpdatesWorkingVariables : Obligations.RoundUpdatesWorkingVariables := by
  refine fun i => ⟨?_, fun s _ _ => ⟨_, (roundT1 s.work K[i] (s.readSched i)).toNat, (roundT2 s.work).toNat,
    exec_round i s, roundT1_toNat _ _ _, roundT2_toNat _, ?_, rfl, rfl, rfl, ?_, rfl, rfl, rfl,
    nextRound_eq_ofNat i, rfl⟩⟩
  · rw [← seqRound_eq_ofNat]
    exact decodeMicro_seqRound i
  · exact BitVec.toNat_add (roundT1 s.work K[i] (s.readSched i)) (roundT2 s.work)
  · exact BitVec.toNat_add s.work.d (roundT1 s.work K[i] (s.readSched i))

/-! ### `ADDBACK` (R142) -/

/-- `ADDBACK` adds the working variable of the same index (R21, R142). -/
theorem addBack_getElem (x : HashWords) (v : WorkVars) (i : Fin 8) :
    (addBack x v)[i] = x[i] + (hashOfWork v)[i] := by
  fin_cases i <;> rfl

/-- Each sum of `ADDBACK` is modulo 2^32 (R142). -/
theorem addBack_toNat (x : HashWords) (v : WorkVars) (i : Fin 8) :
    (addBack x v)[i].toNat = (x[i].toNat + (hashOfWork v)[i].toNat) % 2 ^ 32 := by
  rw [addBack_getElem, BitVec.toNat_add]

theorem exec_addback (s : State) : exec .addback s =
    .next (((((s.writeHash (addBack s.hash s.work)).writeCnt 0).writePhase .idle).discardBlock).respond .ack) := rfl

/-- Settles O23: the value of `SEQ` by the encoder's word, the eight sums index by index, the rest by the meaning
itself. -/
theorem addbackEndsTheBlock : Obligations.AddbackEndsTheBlock := by
  refine ⟨decodeMicro_seqAddback, fun s _ _ => ?_⟩
  have hsum := addBack_toNat s.hash s.work
  exact ⟨_, exec_addback s, hsum 0, hsum 1, hsum 2, hsum 3, hsum 4, hsum 5, hsum 6, hsum 7, rfl, rfl, rfl, rfl⟩

end Sys2Proof.Machine
end

section
/-! Digest serializer (R150, R151): the code words of `RDB` and `RDH` as numbers, the byte and the nibble they read as
numbers, and the one response they give. -/

namespace Sys2Proof.Machine

/-- A format C word with a small number as its operand is the sum of its fields' values (R70). -/
theorem commandWord_ofNat_eq_ofNat (op : BitVec 3) {n : Nat} (hn : n < 2 ^ 8) :
    commandWord op (BitVec.ofNat 8 n) = BitVec.ofNat 11 (op.toNat * 2 ^ 8 + n) := by
  apply BitVec.eq_of_toNat_eq
  simp only [commandWord_toNat, BitVec.toNat_ofNat, Nat.mod_eq_of_lt hn]
  omega

/-- The word of `RDB k` as a number (R71). -/
theorem commandWord_rdb_eq_ofNat (k : Fin 32) :
    commandWord 3#3 (BitVec.ofNat 8 k.val) = BitVec.ofNat 11 (0x300 + k.val) :=
  commandWord_ofNat_eq_ofNat 3#3 (by omega)

/-- The word of `RDH n` as a number (R71). -/
theorem commandWord_rdh_eq_ofNat (n : Fin 64) :
    commandWord 4#3 (BitVec.ofNat 8 n.val) = BitVec.ofNat 11 (0x400 + n.val) :=
  commandWord_ofNat_eq_ofNat 4#3 (by omega)

/-- Byte `k` of the digest is a digit of its word in base 256 (R150). -/
theorem digestByte_toNat (x : HashWords) (k : Fin 32) :
    (digestByte x k).toNat = x[rdbWord k].toNat / 2 ^ (8 * (3 - k.val % 4)) % 256 :=
  byteLane_toNat x[rdbWord k] (rdbLane k)

/-- Nibble `n` of the digest is a digit of its word in base 16 (R151). -/
theorem digestNibble_toNat (x : HashWords) (n : Fin 64) :
    (digestNibble x n).toNat = x[rdhWord n].toNat / 2 ^ (4 * (7 - n.val % 8)) % 16 :=
  nibbleLane_toNat x[rdhWord n] (rdhLane n)

theorem exec_rdb (k : Fin 32) (s : State) :
    exec (.rdb k) s = .next (s.respond (.data (digestByte s.hash k))) := rfl

theorem exec_rdh (n : Fin 64) (s : State) :
    exec (.rdh n) s = .next (s.respond (.data (hexchar (digestNibble s.hash n)))) := rfl

/-- Settles O17: the word by the encoder's word; the response is the byte of the digest, and a response changes nothing
else. -/
theorem rdbAnswersDigestByte : Obligations.RdbAnswersDigestByte := by
  refine fun k => ⟨?_, fun s _ => ⟨rdbWord k, _, rfl, digestByte_toNat s.hash k, exec_rdb k s⟩⟩
  rw [← commandWord_rdb_eq_ofNat]
  exact decodeCommand_rdb k

/-- Settles O18: the word by the encoder's word; the response is the character of the nibble of the digest, and a response
changes nothing else. -/
theorem rdhAnswersDigestCharacter : Obligations.RdhAnswersDigestCharacter := by
  refine fun n => ⟨?_, fun s _ => ⟨rdhWord n, _, rfl, digestNibble_toNat s.hash n, exec_rdh n s⟩⟩
  rw [← commandWord_rdh_eq_ofNat]
  exact decodeCommand_rdh n

end Sys2Proof.Machine
end

section
/-! Padding (R160, R161): the length of the padded message, the number of zero bytes, and the eight length bytes as a
big-endian number. -/

namespace Sys2Proof.Machine

theorem padZeros_lt (L : Nat) : padZeros L < 64 := Nat.mod_lt _ (by decide)

/-- The message, the marker and the zero bytes leave room for eight bytes in the last block (R160). -/
theorem add_one_add_padZeros_mod (L : Nat) : (L + 1 + padZeros L) % 64 = 56 := by
  rw [padZeros]
  omega

@[simp] theorem lengthBytes_length (bl : BitVec 64) : (lengthBytes bl).length = 8 := rfl

/-- The length bytes are the digits of the bit length in base 256, the most significant first (R160). -/
theorem foldl_lengthBytes (bl : BitVec 64) :
    (lengthBytes bl).foldl (fun acc b => 256 * acc + b.toNat) 0 = bl.toNat := by
  have hbl : bl.toNat < 2 ^ 64 := bl.isLt
  simp only [lengthBytes, List.foldl_cons, List.foldl_nil, BitVec.extractLsb_toNat, Nat.shiftRight_eq_div_pow]
  omega

theorem bitLength_toNat (L : Nat) : (bitLength L).toNat = 8 * L % 2 ^ 64 := BitVec.toNat_ofNat _ _

theorem pad_length (m : List Byte) : (pad m).length = m.length + 1 + padZeros m.length + 8 := by
  simp only [pad, List.length_append, List.length_cons, List.length_nil, List.length_replicate, lengthBytes_length]

/-- The closed form of the number of blocks is the ceiling of R161. -/
theorem blockCount_eq_ceil (L : Nat) : blockCount L = (L + 9 + 63) / 64 := by
  rw [blockCount]
  omega

/-- The padded message is its blocks and nothing more: fewer than 64 zero bytes complete the last one (R161). -/
theorem pad_length_eq_blocks (m : List Byte) : (pad m).length = 64 * blockCount m.length := by
  have hlt := padZeros_lt m.length
  have hmod := add_one_add_padZeros_mod m.length
  rw [pad_length, blockCount]
  omega

/-- Settles O59: the length is 64 for each block, and the number of blocks is the ceiling. -/
theorem paddedMessageIsWholeBlocks : Obligations.PaddedMessageIsWholeBlocks := fun m =>
  ⟨blockCount_eq_ceil m.length ▸ pad_length_eq_blocks m, blockCount_eq_ceil m.length, Nat.le_add_left _ _,
    pad_length_eq_blocks m ▸ Nat.mul_mod_right _ _⟩

/-- Settles O60: the parts of the padding by its definition, the zero bytes by their number, and the length bytes by the
number they are the digits of. -/
theorem paddingAppendsMarkerZerosAndBitLength : Obligations.PaddingAppendsMarkerZerosAndBitLength := fun m =>
  ⟨padZeros m.length, lengthBytes (bitLength m.length), rfl, padZeros_lt _, add_one_add_padZeros_mod _,
    lengthBytes_length _, (foldl_lengthBytes _).trans (bitLength_toNat _)⟩

end Sys2Proof.Machine
end

section
/-! Faults (R183): an instruction that leads to `FAULT` has raised its cause, and fault entry is two fields and one
response. -/

namespace Sys2Proof.Machine

variable {s t : State}

/-- Fault entry, field by field (R183). -/
theorem raise_eq (s : State) (c : BlockFault) :
    s.raise c = { s with fcause := some c, phase := .fault, responses := s.responses ++ [.fault c] } := rfl

/-- An instruction that leads to `FAULT` from another phase has raised a fault: `START` and `ADDBACK` write another phase,
and the rest keep the one they find. -/
theorem eq_raise_of_exec_to_fault {i : Instr} (hp : s.phase ≠ .fault) (h : exec i s = .next t)
    (ht : t.phase = .fault) : ∃ c, t = s.raise c := by
  rcases exec_cases h with ⟨-, rfl⟩ | ⟨_, _, -, -, rfl⟩ | ⟨_, -, -, hover⟩ | ⟨-, -, rfl⟩ | ⟨-, -, hunder⟩ |
    ⟨_, -, rfl⟩ | ⟨_, -, rfl⟩ | ⟨_, -, rfl⟩ | ⟨_, -, -, rfl⟩ | ⟨-, rfl⟩ | ⟨_, -, rfl⟩ | ⟨-, rfl⟩
  case inr.inr.inl => exact ⟨.overrun, hover⟩
  case inr.inr.inr.inr.inl => exact ⟨.underrun, hunder⟩
  all_goals simp [hp] at ht

/-- Settles O27: what leads to `FAULT` is fault entry, and fault entry writes nothing of the command's own. -/
theorem faultEntryChangesNothingElse : Obligations.FaultEntryChangesNothingElse := by
  intro i s t hp h ht
  have hidle : s.phase ≠ .fault := by simp [hp]
  obtain ⟨c, rfl⟩ := eq_raise_of_exec_to_fault hidle h ht
  exact ⟨c, raise_eq s c⟩

end Sys2Proof.Machine
end

section
/-! Reset (R200): the words of the hash state that a reset leaves, and its step from any state. -/

namespace Sys2Proof.Machine

/-- After a reset each word of the hash state is the initial value (R200). -/
@[simp] theorem readHash_resetEvent (s : State) (i : Fin 8) : s.resetEvent.readHash i = IV[i] := rfl

/-- Settles O13: the step is the reset itself, in any phase and before anything else the step could do, and each value is
what the reset writes there. -/
theorem resetEventGivesTheResetState : Obligations.ResetEventGivesTheResetState := by
  intro s rest hreset
  refine ⟨State.resetEvent { s with host := rest }, step_of_reset hreset, ?_⟩
  simp

end Sys2Proof.Machine
end

section
/-! Encoding (R71, R73, R78, R80): the two decoders as inverses of the encoder, the reserved words of both formats as the
complement of the legal ones, and their refusal. -/

namespace Sys2Proof

/-- The decoder of format C rejects exactly the reserved words, each under its own name. -/
theorem decodeCommand_eq_error_iff {w : CommandWord} {r : Reserved} :
    decodeCommand w = .error r ↔ legalCommand w = false ∧ r = .command w := by
  rw [legalCommand, decodeCommand_eq]
  split_ifs <;> simp [eq_comm]

/-- The decoder of format U rejects exactly the reserved values, each under its own name. -/
theorem decodeMicro_eq_error_iff {w : SeqWord} {r : Reserved} :
    decodeMicro w = .error r ↔ legalSeq w = false ∧ r = .seq w := by
  rw [legalSeq, decodeMicro_eq]
  split_ifs <;> simp [eq_comm]

theorem legalCommand_eq_true_iff {w : CommandWord} : legalCommand w = true ↔ ∃ i, decodeCommand w = .ok i := by
  rw [legalCommand]
  cases decodeCommand w <;> simp

theorem legalSeq_eq_true_iff {w : SeqWord} : legalSeq w = true ↔ ∃ i, decodeMicro w = .ok i := by
  rw [legalSeq]
  cases decodeMicro w <;> simp

/-- Every instruction with a command word is well-formed: the one ill-formed term is a micro-operation. -/
theorem wf_of_encode_eq_command {i : Instr} {w : CommandWord} (h : encode i = .command w) : i.wf = true := by
  cases i with
  | expand k => cases h
  | _ => rfl

/-- The numbers that do not count are the rest of the range. -/
theorem countP_not_range (p : Nat → Bool) {n c : Nat} (h : (List.range n).countP p = c) :
    (List.range n).countP (fun k => !p k) = n - c := by
  have hsum := List.length_eq_countP_add_countP p (l := List.range n)
  rw [List.length_range, h] at hsum
  have hnot : (List.range n).countP (fun k => !p k) = (List.range n).countP (fun k => ¬ p k = true) :=
    List.countP_congr fun k _ => by simp
  omega

end Sys2Proof

namespace Sys2Proof.Machine

/-- Settles O1: a command word by the inverse of format C, a value of `SEQ` by the inverse of format U. -/
theorem decodeOfEncodeIsTheInstruction : Obligations.DecodeOfEncodeIsTheInstruction := by
  intro i hwf
  cases he : encode i with
  | command w => exact decodeCommand_eq_ok_iff.mpr he
  | seq w => exact decodeMicro_eq_ok_iff.mpr ⟨hwf, he⟩

/-- Settles O2: the same two inverses the other way. -/
theorem decodedWordIsTheEncodingOfItsInstruction : Obligations.DecodedWordIsTheEncodingOfItsInstruction := by
  intro c i h
  cases c with
  | command w =>
    have he := decodeCommand_eq_ok_iff.mp h
    exact ⟨wf_of_encode_eq_command he, he⟩
  | seq w => exact decodeMicro_eq_ok_iff.mp h

/-- The four classes of reserved command words are what the rows of R71 leave (R73). -/
theorem decodeCommand_eq_error_self_iff (w : CommandWord) : decodeCommand w = .error (.command w) ↔
    5 ≤ w.toNat / 256 ∨ ((w.toNat / 256 = 0 ∨ w.toNat / 256 = 2) ∧ w.toNat % 256 ≠ 0) ∨
    (w.toNat / 256 = 3 ∧ w.toNat % 256 / 32 ≠ 0) ∨ (w.toNat / 256 = 4 ∧ w.toNat % 256 / 64 ≠ 0) := by
  rw [decodeCommand_eq_error_iff, eq_self, and_true, ← Bool.not_eq_true, legalCommand_iff]
  omega

/-- The three stretches of reserved values of `SEQ` are what the rows of R78 leave (R80). -/
theorem decodeMicro_eq_error_self_iff (w : SeqWord) : decodeMicro w = .error (.seq w) ↔
    (0x010 ≤ w.toNat ∧ w.toNat ≤ 0x04F) ∨ (0x081 ≤ w.toNat ∧ w.toNat ≤ 0x0BF) ∨ 0x101 ≤ w.toNat := by
  rw [decodeMicro_eq_error_iff, eq_self, and_true, ← Bool.not_eq_true, legalSeq_iff]
  have hw := w.isLt
  omega

/-- Settles O4: the classes and the count as the rest of the legal words; the refusal by the reserved word held out. -/
theorem reservedCommandWordsAreRefused : Obligations.ReservedCommandWordsAreRefused := by
  refine ⟨decodeCommand_eq_error_self_iff, countP_not_range _ countP_legalCommand, fun s w hw hr hl => ?_,
    fun s w hw hl hp => ?_⟩
  · exact step_of_reservedWord hr (reservedWord_of_port s hw hl)
  · exact step_of_reservedWord (by simp [hw]) (reservedWord_of_present s hp hw hl)

/-- Settles O6: the ranges and the count as the rest of the legal values; in `BUSY` a reserved word held out is refused
first, and then the value of `SEQ`. -/
theorem reservedSequencerValuesAreRefused : Obligations.ReservedSequencerValuesAreRefused := by
  refine ⟨decodeMicro_eq_error_self_iff, countP_not_range _ countP_legalSeq, fun s hp hr hl => ?_⟩
  have hseq : s.reservedWord = none → step s = .refused (.reserved (.seq s.seq)) := fun hn =>
    step_of_busy_reserved hp hr hn (decodeMicro_eq_error_iff.mpr ⟨hl, rfl⟩)
  refine ⟨?_, hseq⟩
  cases hw : s.reservedWord with
  | none => exact ⟨_, hseq hw⟩
  | some w => exact ⟨_, step_of_reservedWord hr hw⟩

/-- Settles O7: each word is what the encoder gives for its instruction. -/
theorem writtenOutWordsDecode : Obligations.WrittenOutWordsDecode :=
  ⟨decodeCommand_eq_ok_iff.mpr rfl, decodeCommand_eq_ok_iff.mpr rfl, decodeCommand_eq_ok_iff.mpr rfl,
    decodeCommand_eq_ok_iff.mpr rfl, decodeCommand_eq_ok_iff.mpr rfl, decodeMicro_eq_ok_iff.mpr ⟨rfl, rfl⟩,
    decodeMicro_eq_ok_iff.mpr ⟨rfl, rfl⟩, decodeMicro_eq_ok_iff.mpr ⟨rfl, rfl⟩, decodeMicro_eq_ok_iff.mpr ⟨rfl, rfl⟩,
    decodeMicro_eq_ok_iff.mpr ⟨rfl, rfl⟩⟩

theorem exec_expand_of_lt {i : Fin 64} (s : State) (h : i.val < 16) :
    exec (.expand i) s = .refused (.reserved (.seq (seqExpand i))) := by
  simp only [exec, execExpand, if_neg (Nat.not_le_of_lt h)]

/-- Settles O24: the refusal names the word the encoder gives for the ill-formed term. -/
theorem illFormedExpandIsRefused : Obligations.IllFormedExpandIsRefused := fun i s h =>
  seqExpand_eq_ofNat i ▸ exec_expand_of_lt s h

end Sys2Proof.Machine
end

section
/-! The host's act, one equation per act (R81, R206, R207), and the agent that moves in each phase. -/

namespace Sys2Proof.Machine

/-! ### The host's act -/

section
variable {s : State} {rest : List HostAct} {v w : CommandWord}

theorem hostActs_of_nil (h : s.host = []) : s.hostActs = s := by simp only [State.hostActs, h]

theorem hostActs_of_quiet (h : s.host = .quiet :: rest) : s.hostActs = { s with host := rest } := by
  simp only [State.hostActs, h]

theorem hostActs_of_await (h : s.host = .await :: rest) (ha : s.awaiting = true) : s.hostActs = s := by
  simp only [State.hostActs, h, ha, if_true]

theorem hostActs_of_answered (h : s.host = .await :: rest) (ha : s.awaiting = false) :
    s.hostActs = { s with host := rest } := by
  simp [State.hostActs, h, ha]

theorem hostActs_of_present (h : s.host = .present w :: rest) (hn : s.port = none) :
    s.hostActs = { s with port := some w, host := rest } := by
  simp only [State.hostActs, h, hn]

theorem hostActs_of_present_held (h : s.host = .present w :: rest) (hv : s.port = some v) (hp : s.phase ≠ .fault) :
    s.hostActs = s := by
  simp only [State.hostActs, h, hv]

theorem awaiting_of_busy (hp : s.phase = .busy) : s.awaiting = true := by simp only [State.awaiting, hp]

theorem awaiting_of_idle (hp : s.phase = .idle) : s.awaiting = s.port.isSome := by simp only [State.awaiting, hp]

/-- While a word stands at the port of an `IDLE` core, a host that awaits, presents a further word or has no act waits. -/
theorem hostActs_of_waiting (hp : s.phase = .idle) (hv : s.port = some v)
    (ha : ∀ a ∈ s.host.head?, a = .await ∨ ∃ u, a = .present u) : s.hostActs = s := by
  cases hh : s.host with
  | nil => exact hostActs_of_nil hh
  | cons a rest =>
    rcases ha a (by simp [hh]) with rfl | ⟨u, rfl⟩
    · exact hostActs_of_await hh (by simp [awaiting_of_idle hp, hv])
    · exact hostActs_of_present_held hh hv (by simp [hp])

end

/-! ### Which agent moves -/

theorem legalCommand_of_decode {w : CommandWord} {i : Instr} (h : decodeCommand w = .ok i) : legalCommand w = true :=
  legalCommand_eq_true_iff.mpr ⟨i, h⟩

/-- In `IDLE` a word presented to an empty port is accepted in the same step (R81). -/
theorem step_of_idle_present {s : State} {w : CommandWord} {i : Instr} {rest : List HostAct} (hp : s.phase = .idle)
    (hn : s.port = none) (hh : s.host = .present w :: rest) (hd : decodeCommand w = .ok i) :
    step s = exec i { s with host := rest } := by
  have hact := hostActs_of_present hh hn
  have hl : s.reservedWord = none :=
    (reservedWord_eq_none_iff s).mpr (by simp [hn, hh, legalCommand_of_decode hd])
  rw [step_of_idle hp (by simp [hh]) hl (by rw [hact]) hd, hact, ← hn]

/-- In `IDLE` a word at the port is accepted while the host waits (R81). -/
theorem step_of_idle_waiting {s : State} {w : CommandWord} {i : Instr} (hp : s.phase = .idle) (hw : s.port = some w)
    (ha : ∀ a ∈ s.host.head?, a = .await ∨ ∃ v, a = .present v ∧ legalCommand v = true)
    (hd : decodeCommand w = .ok i) : step s = exec i { s with port := none } := by
  have hact : s.hostActs = s := hostActs_of_waiting hp hw fun a h => (ha a h).imp_right fun ⟨v, hv, _⟩ => ⟨v, hv⟩
  have hr : s.host.head? ≠ some .reset := fun h => by simpa using ha _ h
  have hl : s.reservedWord = none := (reservedWord_eq_none_iff s).mpr
    ⟨by simp [hw, legalCommand_of_decode hd], fun v hv => by simpa using ha _ hv⟩
  rw [step_of_idle hp hr hl (by rw [hact]; exact hw) hd, hact]

/-- In `IDLE` a word at the port is accepted while the host does nothing (R81). -/
theorem step_of_idle_quiet {s : State} {w : CommandWord} {i : Instr} {rest : List HostAct} (hp : s.phase = .idle)
    (hw : s.port = some w) (hh : s.host = .quiet :: rest) (hd : decodeCommand w = .ok i) :
    step s = exec i { s with port := none, host := rest } := by
  have hact := hostActs_of_quiet hh
  have hl : s.reservedWord = none :=
    (reservedWord_eq_none_iff s).mpr (by simp [hw, hh, legalCommand_of_decode hd])
  rw [step_of_idle hp (by simp [hh]) hl (by rw [hact]; exact hw) hd, hact]

/-- Settles O8, by the host's act: presenting, waiting, or doing nothing. -/
theorem idleStepRunsThePresentedCommand : Obligations.IdleStepRunsThePresentedCommand :=
  ⟨fun _ _ _ hp hn _ => step_of_idle_present hp hn, fun _ _ _ => step_of_idle_waiting,
    fun _ _ _ hp hw _ => step_of_idle_quiet hp hw⟩

/-- Settles O9: the host's act moves only the port and the host's list, and only as a hold allows. -/
theorem busyStepRunsTheMicroOperationOfSeq : Obligations.BusyStepRunsTheMicroOperationOfSeq :=
  fun s _ hp hr hl hd => ⟨s.hostActs.port, s.hostActs.host,
    (step_of_busy hp hr hl hd).trans (congrArg (exec _) (hostActs_eq s)), fun _ => hostActs_port_of_some s,
    fun _ => hostActs_port_of_none s, hostActs_host_suffix s⟩

/-- In `IDLE` with nothing at the port a step in which no word is presented is the host's act alone (R193). -/
theorem step_of_idle_unpresented {s : State} (hp : s.phase = .idle) (hn : s.port = none)
    (ha : ∀ a ∈ s.host.head?, a = .quiet ∨ a = .await) : step s = .next s.hostActs := by
  have hr : s.host.head? ≠ some .reset := fun h => by simpa using ha _ h
  have hw : ∀ w, s.host.head? ≠ some (.present w) := fun w h => by simpa using ha _ h
  refine step_of_idle_empty hp hr ((reservedWord_eq_none_iff s).mpr ⟨by simp [hn], fun w h => absurd h (hw w)⟩) ?_
  exact Option.eq_none_iff_forall_ne_some.mpr fun w h => hw w (hostActs_port_of_none s hn h)

/-- Settles O10: the step is the host's act, and with nothing at the port every act but presenting passes. -/
theorem idleCoreWithoutACommandKeepsItsState : Obligations.IdleCoreWithoutACommandKeepsItsState := by
  refine fun s hp hn => ⟨fun a rest ha hh => ?_, fun hh => ?_⟩
  · rw [step_of_idle_unpresented hp hn (by simpa [hh] using ha)]
    rcases ha with rfl | rfl
    · rw [hostActs_of_quiet hh]
    · rw [hostActs_of_answered hh (by simp [awaiting_of_idle hp, hn])]
  · rw [step_of_idle_unpresented hp hn (by simp [hh]), hostActs_of_nil hh]

/-! ### `FAULT` (R185) -/

/-- Without a reset a run in `FAULT` moves only the port and the host's list. -/
theorem runSteps_of_fault (n : Nat) {s : State} (hp : s.phase = .fault) (hr : HostAct.reset ∉ s.host)
    (hg : s.LegalHost) :
    ∃ p h, runSteps n s = .next { s with port := p, host := h } ∧ (s.port ≠ none → p = s.port) ∧ h <:+ s.host := by
  induction n generalizing s with
  | zero => exact ⟨s.port, s.host, rfl, fun _ => rfl, List.suffix_refl _⟩
  | succ n ih =>
    have hstep := step_of_fault hp (head_ne_reset hr) (reservedWord_of_legalHost hg)
    obtain ⟨p, h, hrun, hport, hhost⟩ :=
      ih ((hostActs_phase s).trans hp) (hostActs_no_reset hr) (hostActs_legalHost hg)
    refine ⟨p, h, ?_, fun hne => ?_, hhost.trans (hostActs_host_suffix s)⟩
    · rw [runSteps_succ_of_next n hstep, hrun, hostActs_eq]
    · obtain ⟨w, hw⟩ := Option.ne_none_iff_exists'.mp hne
      have hw' := hostActs_port_of_some s hw
      rw [hport (by simp [hw']), hw', hw]

/-- Settles O12, by induction on the number of steps. -/
theorem faultLastsUntilReset : Obligations.FaultLastsUntilReset := fun n _ => runSteps_of_fault n

end Sys2Proof.Machine
end

section
/-! Totality and faults of instructions (R180 to R183), the positions of the sequencer (R79), and what a step does to each
field of the core: the effects of a step, with the command accepted or the position of the sequencer. -/

namespace Sys2Proof.Machine

/-! ### Which instructions answer, and which fault -/

/-- `PUSH` writes where `CNT` says, or the block is full. -/
theorem cnt_full_or_index (c : Fin 65) : c = 64 ∨ ∃ p : Fin 64, c.val = p.val := by
  cases h : pushIndex c with
  | none => exact .inl (pushIndex_eq_none h)
  | some p => exact .inr ⟨p, pushIndex_eq_some h⟩

/-- `PUSH` and `START` answer on both sides of their test, `EXPAND` where it is well-formed, the others always. -/
theorem exec_answers_of_wf {i : Instr} (s : State) (hwf : i.wf = true) : ∃ t, exec i s = .next t := by
  cases i with
  | init => exact ⟨_, exec_init s⟩
  | push d =>
    rcases cnt_full_or_index s.cnt with hc | ⟨p, hc⟩
    · exact ⟨_, exec_push_of_full d hc⟩
    · exact ⟨_, exec_push_of_lt d hc⟩
  | start =>
    by_cases hc : s.cnt = 64
    · exact ⟨_, exec_start_of_full hc⟩
    · exact ⟨_, exec_start_of_not_full hc⟩
  | rdb k => exact ⟨_, exec_rdb k s⟩
  | rdh n => exact ⟨_, exec_rdh n s⟩
  | deser j => exact ⟨_, exec_deser j s⟩
  | expand k => exact ⟨_, exec_expand_of_le (of_decide_eq_true hwf)⟩
  | wvinit => exact ⟨_, exec_wvinit s⟩
  | round k => exact ⟨_, exec_round k s⟩
  | addback => exact ⟨_, exec_addback s⟩

/-- Settles O25, instruction by instruction. -/
theorem everyWellFormedInstructionAnswersANextState :
    Obligations.EveryWellFormedInstructionAnswersANextState := fun _ s => exec_answers_of_wf s

/-- Settles O16: the two sides of the test of `START`. -/
theorem startBeginsABlockOrUnderruns : Obligations.StartBeginsABlockOrUnderruns :=
  ⟨decodeCommand_eq_ok_iff.mpr rfl, fun _ _ hc => exec_start_of_full hc,
    fun s _ hc => (exec_start_of_not_full hc).trans (congrArg _ (raise_eq s .underrun))⟩

/-- What leads to `FAULT` is one of the two faulting commands (R182). -/
theorem faulting_of_exec_to_fault {i : Instr} {s t : State} (hp : s.phase ≠ .fault) (h : exec i s = .next t)
    (ht : t.phase = .fault) : (i = .start ∧ s.cnt ≠ 64) ∨ (∃ d, i = .push d) ∧ s.cnt = 64 := by
  rcases exec_cases h with ⟨-, rfl⟩ | ⟨_, _, -, -, rfl⟩ | ⟨d, hi, hc, -⟩ | ⟨-, -, rfl⟩ | ⟨hi, hc, -⟩ |
    ⟨_, -, rfl⟩ | ⟨_, -, rfl⟩ | ⟨_, -, rfl⟩ | ⟨_, -, -, rfl⟩ | ⟨-, rfl⟩ | ⟨_, -, rfl⟩ | ⟨-, rfl⟩
  case inr.inr.inl => exact .inr ⟨⟨d, hi⟩, hc⟩
  case inr.inr.inr.inr.inl => exact .inl ⟨hi, hc⟩
  all_goals simp [hp] at ht

/-- Settles O26: each faulting command raises its own cause, and nothing else leads to `FAULT`. -/
theorem onlyStartAndPushFault : Obligations.OnlyStartAndPushFault := by
  intro i s t hp h
  have hunder : i = .start ∧ s.cnt ≠ 64 → t = s.raise .underrun := by
    rintro ⟨rfl, hc⟩
    rw [exec_start_of_not_full hc] at h
    cases h
    rfl
  have hover : (∃ d, i = .push d) ∧ s.cnt = 64 → t = s.raise .overrun := by
    rintro ⟨⟨d, rfl⟩, hc⟩
    rw [exec_push_of_full d hc] at h
    cases h
    rfl
  refine ⟨⟨faulting_of_exec_to_fault hp h, ?_⟩, fun hf => ?_, fun hf => ?_⟩
  · rintro (hf | hf)
    · rw [hunder hf, State.raise_phase]
    · rw [hover hf, State.raise_phase]
  · rw [hunder hf]
    exact ⟨rfl, raise_eq s .underrun⟩
  · rw [hover hf]
    exact ⟨rfl, raise_eq s .overrun⟩

/-! ### The positions of the sequencer (R79) -/

theorem seqDeser_eq_seqAt (j : Fin 16) : seqDeser j = seqAt j.val := by
  rw [seqAt, if_pos j.isLt, Fin.ofNat_val_eq_self]

theorem seqExpand_eq_seqAt {i : Fin 64} (h : 16 ≤ i.val) : seqExpand i = seqAt i.val := by
  rw [seqAt, if_neg (Nat.not_lt_of_le h), if_pos i.isLt, Fin.ofNat_val_eq_self]

theorem seqRound_eq_seqAt (i : Fin 64) : seqRound i = seqAt (65 + i.val) := by
  rw [seqAt, if_neg (by omega), if_neg (by omega), if_neg (by omega), if_pos (by omega), Nat.add_sub_cancel_left,
    Fin.ofNat_val_eq_self]

theorem nextDeser_eq_seqAt (j : Fin 16) : nextDeser j = seqAt (j.val + 1) := by
  unfold nextDeser
  split
  next h => rw [seqDeser_eq_seqAt, Fin.val_add_one_of_lt' (by omega)]
  next h =>
    rw [show j.val + 1 = 16 by omega]
    exact seqExpand_eq_seqAt (by decide)

theorem nextExpand_eq_seqAt {i : Fin 64} (h16 : 16 ≤ i.val) : nextExpand i = seqAt (i.val + 1) := by
  unfold nextExpand
  split
  next h =>
    have hv : (i + 1).val = i.val + 1 := Fin.val_add_one_of_lt' (by omega)
    rw [seqExpand_eq_seqAt (by omega), hv]
  next h =>
    rw [show i.val + 1 = 64 by omega]
    rfl

theorem nextRound_eq_seqAt (i : Fin 64) : nextRound i = seqAt (65 + i.val + 1) := by
  unfold nextRound
  split
  next h => rw [seqRound_eq_seqAt, Fin.val_add_one_of_lt' (by omega), Nat.add_assoc]
  next h =>
    rw [show 65 + i.val + 1 = 129 by omega]
    rfl

/-- Every position of a block is a legal value of `SEQ`. -/
theorem legalSeq_seqAt {k : Nat} (hk : k < 130) : legalSeq (seqAt k) = true :=
  legalSeq_eq_true_iff.mpr
    ⟨_, decodeMicro_seqAt (List.getElem?_eq_getElem (microOrder_length.symm ▸ hk))⟩

/-- Everything a micro-operation that `SEQ` names can have done: it has moved the block from its position to the next one,
writing `W` and the working variables at most, or it was the last. -/
theorem exec_micro_cases {w : SeqWord} {i : Instr} {s t : State} (hd : decodeMicro w = .ok i)
    (h : exec i s = .next t) :
    (∃ k < 129, w = seqAt k ∧ ∃ x v, t = { s with sched := x, work := v, seq := seqAt (k + 1) }) ∨
    (w = 0x100#9 ∧
      t = ((((s.writeHash (addBack s.hash s.work)).writeCnt 0).writePhase .idle).discardBlock).respond .ack) := by
  rcases decodeMicro_cases hd with ⟨j, rfl, rfl⟩ | ⟨k, hk, rfl, rfl⟩ | ⟨rfl, rfl⟩ | ⟨k, rfl, rfl⟩ | ⟨rfl, rfl⟩
  · rw [exec_deser, nextDeser_eq_seqAt] at h
    cases h
    exact .inl ⟨j.val, by omega, seqDeser_eq_seqAt j, _, _, rfl⟩
  · rw [exec_expand_of_le hk, nextExpand_eq_seqAt hk] at h
    cases h
    exact .inl ⟨k.val, by omega, seqExpand_eq_seqAt hk, _, _, rfl⟩
  · cases h
    exact .inl ⟨64, by decide, rfl, _, _, rfl⟩
  · rw [exec_round, nextRound_eq_seqAt] at h
    cases h
    exact .inl ⟨65 + k.val, by omega, seqRound_eq_seqAt k, _, _, rfl⟩
  · cases h
    exact .inr ⟨rfl, rfl⟩

/-- The position of a block at which a `BUSY` core stands. -/
theorem exists_seqAt_of_decodeMicro {w : SeqWord} {i : Instr} (hd : decodeMicro w = .ok i) :
    ∃ k < 130, w = seqAt k := by
  rcases decodeMicro_cases hd with ⟨j, -, rfl⟩ | ⟨k, hk, -, rfl⟩ | ⟨-, rfl⟩ | ⟨k, -, rfl⟩ | ⟨-, rfl⟩
  · exact ⟨j.val, by omega, seqDeser_eq_seqAt j⟩
  · exact ⟨k.val, by omega, seqExpand_eq_seqAt hk⟩
  · exact ⟨64, by decide, rfl⟩
  · exact ⟨65 + k.val, by omega, seqRound_eq_seqAt k⟩
  · exact ⟨129, by decide, rfl⟩

/-! ### The effects of a step -/

/-- The command word that a step in `IDLE` accepts: the one at the port, or the one the host presents to an empty port
(R81). -/
abbrev State.Accepts (s : State) (w : CommandWord) : Prop :=
  s.port = some w ∨ s.port = none ∧ s.host.head? = some (.present w)

/-- Everything a step can do, with the port and the host's list left open: `StepEffect s t` says which agent has moved from
`s` to `t`, and by which command or at which position. -/
inductive StepEffect (s : State) : State → Prop
  | reset {rest : List HostAct} (hr : s.host = .reset :: rest) :
      StepEffect s (State.resetEvent { s with host := rest })
  | hostOnly (p : Option CommandWord) (h : List HostAct) (hp : s.phase ≠ .busy) :
      StepEffect s { s with port := p, host := h }
  | init (p : Option CommandWord) (h : List HostAct) (hp : s.phase = .idle) (hw : s.Accepts 0x000#11) :
      StepEffect s { s with hash := IV, cnt := 0, responses := s.responses ++ [.ack], port := p, host := h }
  | push (p : Option CommandWord) (h : List HostAct) (hp : s.phase = .idle) {w : CommandWord} {d : Byte} {q : Fin 64}
      (hw : s.Accepts w) (hd : decodeCommand w = .ok (.push d)) (hq : s.cnt.val = q.val) :
      StepEffect s { s with
        buf := s.buf.set q.val d, cnt := cntAfterPush q, responses := s.responses ++ [.ack], port := p, host := h }
  | overrun (p : Option CommandWord) (h : List HostAct) (hp : s.phase = .idle) {w : CommandWord} {d : Byte}
      (hw : s.Accepts w) (hd : decodeCommand w = .ok (.push d)) (hc : s.cnt = 64) :
      StepEffect s (State.raise { s with port := p, host := h } .overrun)
  | start (p : Option CommandWord) (h : List HostAct) (hp : s.phase = .idle) (hw : s.Accepts 0x200#11)
      (hc : s.cnt = 64) : StepEffect s { s with phase := .busy, seq := seqAt 0, port := p, host := h }
  | underrun (p : Option CommandWord) (h : List HostAct) (hp : s.phase = .idle) (hw : s.Accepts 0x200#11)
      (hc : s.cnt ≠ 64) : StepEffect s (State.raise { s with port := p, host := h } .underrun)
  | read (p : Option CommandWord) (h : List HostAct) (v : Byte) (hp : s.phase = .idle) :
      StepEffect s { s with responses := s.responses ++ [.data v], port := p, host := h }
  | micro (p : Option CommandWord) (h : List HostAct) (hp : s.phase = .busy) {k : Nat} (hk : k < 129)
      (hs : s.seq = seqAt k) (x : Schedule) (v : WorkVars) :
      StepEffect s { s with sched := x, work := v, seq := seqAt (k + 1), port := p, host := h }
  | addback (p : Option CommandWord) (h : List HostAct) (hp : s.phase = .busy) (hs : s.seq = 0x100#9) :
      StepEffect s ((State.discardBlock { s with
        hash := addBack s.hash s.work, cnt := 0, phase := .idle, port := p, host := h }).respond .ack)

/-- The effect of a command accepted in `IDLE`. -/
theorem stepEffect_of_command {s t : State} {w : CommandWord} {i : Instr} (hp : s.phase = .idle) (hw : s.Accepts w)
    (hd : decodeCommand w = .ok i) {u : State} {p : Option CommandWord} {h : List HostAct}
    (hu : u = { s with port := p, host := h }) (he : exec i u = .next t) : StepEffect s t := by
  have hcnt : u.cnt = s.cnt := by rw [hu]
  rcases decodeCommand_cases hd with ⟨rfl, rfl⟩ | ⟨d, rfl, -⟩ | ⟨rfl, rfl⟩ | ⟨k, rfl, -⟩ | ⟨n, rfl, -⟩
  · cases he
    exact hu ▸ .init p h hp hw
  · rcases cnt_full_or_index u.cnt with hc | ⟨q, hq⟩
    · rw [exec_push_of_full d hc] at he
      cases he
      exact hu ▸ .overrun p h hp hw hd (hcnt ▸ hc)
    · rw [exec_push_of_lt d hq] at he
      cases he
      exact hu ▸ .push p h hp hw hd (hcnt ▸ hq)
  · by_cases hc : u.cnt = 64
    · rw [exec_start_of_full hc] at he
      cases he
      exact hu ▸ .start p h hp hw (hcnt ▸ hc)
    · rw [exec_start_of_not_full hc] at he
      cases he
      exact hu ▸ .underrun p h hp hw (hcnt ▸ hc)
  · cases he
    exact hu ▸ .read p h (digestByte s.hash k) hp
  · cases he
    exact hu ▸ .read p h (digestChar s.hash n) hp

/-- A step that answers a next state has one of the effects. -/
theorem step_effect {s t : State} (h : step s = .next t) : StepEffect s t := by
  rcases step_cases h with ⟨rest, hr, rfl⟩ | ⟨-, hp, w, i, -, hw, hd, he⟩ | ⟨-, hp, i, hd, he⟩ | ⟨-, hp, rfl⟩
  · exact .reset hr
  · exact stepEffect_of_command hp hw hd (congrArg (fun u : State => { u with port := none }) (hostActs_eq s)) he
  · rw [hostActs_eq] at he
    rcases exec_micro_cases hd he with ⟨k, hk, hs, x, v, rfl⟩ | ⟨hs, rfl⟩
    · exact .micro _ _ hp hk hs x v
    · exact .addback _ _ hp hs
  · rw [hostActs_eq]
    exact .hostOnly _ _ hp

/-! ### Which step writes which field -/

/-- Settles O28, by the effects of a step: the others leave `H` as it is. -/
theorem hashIsWrittenOnlyByInitAddbackReset : Obligations.HashIsWrittenOnlyByInitAddbackReset := by
  intro s t h hne
  cases step_effect h with
  | reset hr => exact .inl (by simp [hr])
  | init _ _ hp hw => exact .inr (.inl ⟨hp, hw, rfl⟩)
  | addback _ _ hp hs => exact .inr (.inr ⟨hp, hs, rfl⟩)
  | hostOnly | push | overrun | start | underrun | read | micro => exact absurd rfl hne

/-- Settles O29, by the effects of a step: the others leave `PHASE` as it is. -/
theorem phaseTransitions : Obligations.PhaseTransitions := by
  intro s t h hne
  cases step_effect h with
  | reset hr => exact .inl ⟨by simp [hr], rfl⟩
  | start _ _ hp hw hc => exact .inr (.inl ⟨hp, rfl, hc, hw⟩)
  | addback _ _ hp hs => exact .inr (.inr (.inl ⟨hp, rfl, hs⟩))
  | overrun _ _ hp hw hd hc => exact .inr (.inr (.inr ⟨hp, rfl, _, hw, .inr ⟨⟨_, hd⟩, hc⟩⟩))
  | underrun _ _ hp hw hc => exact .inr (.inr (.inr ⟨hp, rfl, _, hw, .inl ⟨rfl, hc⟩⟩))
  | hostOnly | init | push | read | micro => exact absurd rfl hne

/-- Settles O30, by the effects of a step: the others leave `CNT` as it is. -/
theorem cntIsAdvancedByPushAndClearedOtherwise : Obligations.CntIsAdvancedByPushAndClearedOtherwise := by
  intro s t h hne
  cases step_effect h with
  | reset hr => exact .inr ⟨rfl, .inl (by simp [hr])⟩
  | init _ _ hp hw => exact .inr ⟨rfl, .inr (.inr ⟨hp, hw⟩)⟩
  | push _ _ hp hw hd hq => exact .inl ⟨congrArg (· + 1) hq.symm, hp, _, _, hw, hd⟩
  | addback _ _ hp hs => exact .inr ⟨rfl, .inr (.inl ⟨hp, hs⟩)⟩
  | hostOnly | overrun | start | underrun | read | micro => exact absurd rfl hne

/-- Settles O31, by the effects of a step: the others leave `FCAUSE` as it is. -/
theorem fcauseIsWrittenOnlyByFaultEntryAndReset : Obligations.FcauseIsWrittenOnlyByFaultEntryAndReset := by
  intro s t h hne
  cases step_effect h with
  | reset hr => exact .inl ⟨by simp [hr], rfl⟩
  | overrun _ _ hp | underrun _ _ hp => exact .inr ⟨hp, rfl, by simp⟩
  | hostOnly | init | push | start | read | micro | addback => exact absurd rfl hne

/-- Settles O32, by the effects of a step: a command or `ADDBACK` gives one response, the others none. -/
theorem atMostOneResponsePerStep : Obligations.AtMostOneResponsePerStep := by
  intro s t h
  cases step_effect h with
  | reset | hostOnly | start | micro => exact .inl rfl
  | init | push | overrun | underrun | read | addback => exact .inr ⟨_, rfl⟩

/-- In `BUSY` the port and the host's list are the host's act alone: a micro-operation touches neither. -/
theorem step_port_host_of_busy {s t : State} (hp : s.phase = .busy) (hr : s.host.head? ≠ some .reset)
    (h : step s = .next t) : t.port = s.hostActs.port ∧ t.host = s.hostActs.host := by
  rcases step_cases h with ⟨rest, hh, -⟩ | ⟨-, hi, -⟩ | ⟨-, -, i, -, he⟩ | ⟨-, hb, -⟩
  · simp [hh] at hr
  · simp [hp] at hi
  · exact exec_port_host he
  · exact absurd hp hb

/-- Settles O11: the port is the host's act alone, and of the effects of a step two are of a `BUSY` core. -/
theorem commandIsHeldWhileBusy : Obligations.CommandIsHeldWhileBusy := by
  intro s t hp hr h
  obtain ⟨hport, hhost⟩ := step_port_host_of_busy hp hr h
  refine ⟨fun w hw => hport.trans (hostActs_port_of_some s hw), fun w rest hn hh => ?_, ?_⟩
  · rw [hport, hhost, hostActs_of_present hh hn]
    exact ⟨rfl, rfl⟩
  · cases step_effect h with
    | reset hh => simp [hh] at hr
    | hostOnly _ _ hb => exact absurd hp hb
    | init _ _ hi | push _ _ hi | overrun _ _ hi | start _ _ hi | underrun _ _ hi | read _ _ _ hi => simp [hp] at hi
    | micro => exact .inl ⟨hp, rfl, rfl, rfl, rfl⟩
    | addback _ _ _ hs => exact .inr ⟨hs, rfl, rfl⟩

/-! ### The invariant (R35) -/

/-- Settles O33: the fields of `State.reset` are written out. -/
theorem resetStateValues : Obligations.ResetStateValues := ⟨rfl, rfl, rfl, rfl, rfl, rfl⟩

/-- Settles O34: `State.reset` is `IDLE`, with no cause and nothing at the port. -/
theorem invariantHoldsAtReset : Obligations.InvariantHoldsAtReset := by
  have hphase : State.reset.phase = .idle := rfl
  have hcause : State.reset.fcause = none := rfl
  have hport : State.reset.port = none := rfl
  exact ⟨by simp [hphase, hcause], by simp [hphase], by simp [hport]⟩

/-- What stands at the port after a step is a command: a reserved word is refused when it is presented. -/
theorem step_port_legal {s t : State} (h : step s = .next t) : ∀ w ∈ t.port, legalCommand w = true := by
  intro w hw
  by_cases hr : s.host.head? = some .reset
  · obtain ⟨rest, hh⟩ := List.head?_eq_some_iff.mp hr
    rw [step_of_reset hh] at h
    cases h
    simp at hw
  · rcases (step_host_port hr h).2 with hp | hp
    · simp [hp] at hw
    · obtain ⟨i, hd⟩ := decodeCommand_of_hostActs_port (reservedWord_of_next h hr) (hp ▸ hw)
      exact legalCommand_of_decode hd

/-- Settles O35: a step that enters or leaves `FAULT` writes `FCAUSE` with it, one that enters `BUSY` has found `CNT = 64`,
and one that stays there moves to the next position. -/
theorem everyStepKeepsTheInvariant : Obligations.EveryStepKeepsTheInvariant := by
  rintro s t ⟨hfault, hbusy, -⟩ h
  refine ⟨?_, ?_, step_port_legal h⟩
  · cases step_effect h with
    | reset | overrun | underrun => simp
    | hostOnly | init | push | read | micro => exact hfault
    | start _ _ hp => simpa [hp] using hfault
    | addback _ _ hp => simpa [hp] using hfault
  · intro ht
    cases step_effect h with
    | reset | overrun | underrun | addback => cases ht
    | hostOnly _ _ hp => exact absurd ht hp
    | init _ _ hp | push _ _ hp | read _ _ _ hp => cases hp.symm.trans ht
    | start _ _ _ _ hc => exact ⟨hc, legalSeq_seqAt (by decide)⟩
    | micro _ _ _ hk => exact ⟨(hbusy ht).1, legalSeq_seqAt (Nat.succ_lt_succ hk)⟩

/-- A step of a machine that meets the invariant, with no reset and no reserved word held out, answers a next state. -/
theorem step_answers_of_inv {s : State} (hi : s.Inv) (hr : s.host.head? ≠ some .reset) (hl : s.reservedWord = none) :
    ∃ t, step s = .next t := by
  cases hp : s.phase with
  | idle =>
    cases hw : s.hostActs.port with
    | none => exact ⟨_, step_of_idle_empty hp hr hl hw⟩
    | some w =>
      obtain ⟨i, hd⟩ := decodeCommand_of_hostActs_port hl hw
      rw [step_of_idle hp hr hl hw hd]
      exact exec_answers_of_wf _ (wf_of_encode_eq_command (decodeCommand_eq_ok_iff.mp hd))
  | busy =>
    obtain ⟨i, hd⟩ := legalSeq_eq_true_iff.mp (hi.2.1 hp).2
    rw [step_of_busy hp hr hl hd]
    exact exec_answers_of_wf _ (decodeMicro_eq_ok_iff.mp hd).1
  | fault => exact ⟨_, step_of_fault hp hr hl⟩

/-- Settles O36: a reset answers, a reserved word held out is the presented one, and otherwise what runs is well-formed. -/
theorem onlyReservedCommandWordsAreRefusedUnderTheInvariant :
    Obligations.OnlyReservedCommandWordsAreRefusedUnderTheInvariant := by
  intro s hi
  by_cases hr : s.host.head? = some .reset
  · obtain ⟨rest, hh⟩ := List.head?_eq_some_iff.mp hr
    exact .inl ⟨_, step_of_reset hh⟩
  cases hl : s.reservedWord with
  | none => exact .inl (step_answers_of_inv hi hr hl)
  | some w =>
    obtain ⟨hw, hport | hhead⟩ := reservedWord_eq_some s hl
    · exact absurd (hi.2.2 w hport) (by simp [hw])
    · exact .inr ⟨w, hw, hhead, step_of_reservedWord hr hl⟩

end Sys2Proof.Machine
end

section
/-! A whole block (R79, R113, R142): from every position of the sequencer it comes to its end, and from `START` on it
replaces the hash state by `compress` of it and the block. -/

namespace Sys2Proof.Machine

/-! ### From any position to the end -/

theorem seqAt_toNat {k : Nat} (hk : k < 130) :
    (seqAt k).toNat = if k < 16 then k else if k < 65 then 64 + k else 127 + k := by
  unfold seqAt
  split_ifs <;>
    simp only [seqDeser, seqExpand, seqWvinit, seqRound, seqAddback, seqWord_toNat, BitVec.toNat_ofNat, Fin.ofNat] <;>
    omega

/-- No two positions of a block have the same value of `SEQ`. -/
theorem seqAt_inj {j k : Nat} (hj : j < 130) (hk : k < 130) (h : seqAt j = seqAt k) : j = k := by
  have hn := congrArg BitVec.toNat h
  rw [seqAt_toNat hj, seqAt_toNat hk] at hn
  split_ifs at hn <;> omega

/-- In `BUSY` with no reset and no reserved word held out the micro-operation at the position runs and answers. -/
theorem step_of_seqAt {s : State} {k : Nat} (hp : s.phase = .busy) (hs : s.seq = seqAt k) (hk : k < 130)
    (hr : HostAct.reset ∉ s.host) (hg : s.LegalHost) :
    ∃ i t, decodeMicro s.seq = .ok i ∧ exec i s.hostActs = .next t ∧ step s = .next t := by
  obtain ⟨i, hd⟩ := legalSeq_eq_true_iff.mp (hs ▸ legalSeq_seqAt hk)
  obtain ⟨t, ht⟩ := exec_answers_of_wf s.hostActs (decodeMicro_eq_ok_iff.mp hd).1
  exact ⟨i, t, hd, ht, (step_of_busy hp (head_ne_reset hr) (reservedWord_of_legalHost hg) hd).trans ht⟩

/-- A step at any position but the last leads to the next position, still `BUSY` and with no response. -/
theorem step_to_next_position {s : State} {k : Nat} (hp : s.phase = .busy) (hs : s.seq = seqAt k) (hk : k < 129)
    (hr : HostAct.reset ∉ s.host) (hg : s.LegalHost) :
    ∃ t, step s = .next t ∧ t.phase = .busy ∧ t.seq = seqAt (k + 1) ∧ t.responses = s.responses := by
  obtain ⟨i, t, hd, he, ht⟩ := step_of_seqAt hp hs (by omega) hr hg
  refine ⟨t, ht, ?_⟩
  rcases exec_micro_cases hd he with ⟨j, hj, hsj, x, v, rfl⟩ | ⟨hsa, -⟩
  · obtain rfl : j = k := seqAt_inj (by omega) (by omega) (hsj.symm.trans hs)
    simp [hp]
  · have := seqAt_inj (by omega) (by decide) (hs.symm.trans hsa : seqAt k = seqAt 129)
    omega

/-- The step at the last position ends the block and answers its `START`. -/
theorem step_to_block_end {s : State} (hp : s.phase = .busy) (hs : s.seq = seqAt 129)
    (hr : HostAct.reset ∉ s.host) (hg : s.LegalHost) :
    ∃ t, step s = .next t ∧ t.phase = .idle ∧ t.cnt = 0 ∧ t.responses = s.responses ++ [.ack] := by
  have hd : decodeMicro s.seq = .ok .addback := hs ▸ decodeMicro_seqAddback
  refine ⟨_, (step_of_busy hp (head_ne_reset hr) (reservedWord_of_legalHost hg) hd).trans (exec_addback _), ?_⟩
  simp

/-- From the position `n` before the last a block ends after `n + 1` steps, and is `BUSY` until then. -/
theorem block_ends (n : Nat) {s : State} {k : Nat} (hn : k + n = 129) (hp : s.phase = .busy) (hs : s.seq = seqAt k)
    (hr : HostAct.reset ∉ s.host) (hg : s.LegalHost) :
    ∃ t, runSteps (n + 1) s = .next t ∧ t.phase = .idle ∧ t.cnt = 0 ∧ t.responses = s.responses ++ [.ack] ∧
      ∀ (j : Nat) (u : State), j < n + 1 → runSteps j s = .next u → u.phase = .busy := by
  induction n generalizing s k with
  | zero =>
    obtain rfl : k = 129 := hn
    obtain ⟨t, ht, hend⟩ := step_to_block_end hp hs hr hg
    refine ⟨t, runSteps_succ_of_next 0 ht, hend.1, hend.2.1, hend.2.2, fun j u hj hu => ?_⟩
    obtain rfl : j = 0 := by omega
    cases hu
    exact hp
  | succ n ih =>
    obtain ⟨s', hstep, hp', hs', hresp⟩ := step_to_next_position hp hs (by omega) hr hg
    obtain ⟨t, hrun, hidle, hcnt, hack, hbusy⟩ :=
      ih (by omega) hp' hs' (step_no_reset hr hstep) (step_legalHost hr hg hstep)
    refine ⟨t, (runSteps_succ_of_next _ hstep).trans hrun, hidle, hcnt, hresp ▸ hack, fun j u hj hu => ?_⟩
    cases j with
    | zero =>
      cases hu
      exact hp
    | succ j => exact hbusy j u (by omega) ((runSteps_succ_of_next j hstep).symm.trans hu)

/-- Settles O41, by induction on the positions that are left. -/
theorem everyBlockComesToItsEnd : Obligations.EveryBlockComesToItsEnd := by
  intro s hi hp hr hg
  obtain ⟨i, hd⟩ := legalSeq_eq_true_iff.mp (hi.2.1 hp).2
  obtain ⟨k, hk, hs⟩ := exists_seqAt_of_decodeMicro hd
  obtain ⟨t, ht⟩ := block_ends (129 - k) (by omega) hp hs hr hg
  exact ⟨129 - k + 1, t, by omega, by omega, ht⟩

/-! ### From `START` to the end -/

/-- The last micro-operation adds what the 64 rounds have made of the hash state to it (R145). -/
theorem BlockAt.finish {s : State} (h : BlockAt s 0 s) :
    ∃ t, runSteps 130 s = .next t ∧ t.phase = .idle ∧ t.cnt = 0 ∧ t.hash = compress s.hash s.buf ∧
      t.fcause = s.fcause ∧ t.responses = s.responses ++ [.ack] := by
  obtain ⟨u, hu, hb⟩ := h.run (Nat.le_refl 129)
  refine ⟨_, runSteps_succ_of_last hu (hb.step_last.trans (exec_addback _)), ?_⟩
  have hwork : u.work = roundsFrom (schedule s.buf) (workOfHash s.hash) 64 := hb.work (by decide)
  simp [compress, hwork, hb.hash, hb.fcause, hb.responses]

/-- In `IDLE` the accepted command runs, with the port empty and the host's act done (R81). -/
theorem step_of_accepts {s : State} {w : CommandWord} {i : Instr} (hp : s.phase = .idle) (hw : s.Accepts w)
    (hd : decodeCommand w = .ok i) (hr : s.host.head? ≠ some .reset) (hl : s.reservedWord = none) :
    step s = exec i { s with port := none, host := s.hostActs.host } := by
  have hport : s.hostActs.port = some w := by
    rcases hw with hs | ⟨hn, hh⟩
    · exact hostActs_port_of_some s hs
    · obtain ⟨rest, hrest⟩ := List.head?_eq_some_iff.mp hh
      rw [hostActs_of_present hrest hn]
  exact (step_of_idle hp hr hl hport hd).trans
    (congrArg (fun u : State => exec i { u with port := none }) (hostActs_eq s))

/-- An `IDLE` core with 64 bytes pushed that accepts `START` begins a block (R112). -/
theorem step_of_start {s : State} (hp : s.phase = .idle) (hc : s.cnt = 64) (hw : s.Accepts 0x200#11)
    (hr : HostAct.reset ∉ s.host) (hg : s.LegalHost) :
    step s = .next { s with phase := .busy, seq := 0x000#9, port := none, host := s.hostActs.host } :=
  (step_of_accepts hp hw (decodeCommand_eq_ok_iff.mpr rfl) (head_ne_reset hr) (reservedWord_of_legalHost hg)).trans
    (exec_start_of_full hc)

/-- Settles O39: the step of `START`, then the 130 of the block. -/
theorem startCompressesTheBlockIntoTheHash : Obligations.StartCompressesTheBlockIntoTheHash := by
  intro s hp hc hw hr hg
  have hstart := step_of_start hp hc hw hr hg
  have hb := BlockAt.zero (s := { s with phase := .busy, seq := 0x000#9, port := none, host := s.hostActs.host })
    rfl rfl (step_no_reset hr hstart) (step_legalHost hr hg hstart)
  obtain ⟨t, ht, hend⟩ := hb.finish
  exact ⟨t, (runSteps_succ_of_next 130 hstart).trans ht, hend⟩

end Sys2Proof.Machine
end

section
/-! Unspecified storage (R21, R24, R31, U3): two machines that agree where the spec gives a value, and in `BUSY` also on what
the block has written so far, stay so over every step. -/

namespace Sys2Proof.Machine

/-! ### The relation -/

/-- The two machines are at the position `k` of a block of 64 bytes; they agree on the words of `W` that the block has written,
and once `WVINIT` has run on the working variables. -/
structure State.SameBlock (s t : State) (k : Nat) : Prop where
  inBlock : k < 130
  cnt : s.cnt = 64
  seq : s.seq = seqAt k
  seq' : t.seq = seqAt k
  sched : ∀ p : Fin 64, p.val < k → s.sched[p] = t.sched[p]
  work : 65 ≤ k → s.work = t.work

/-- The two machines cannot be told apart by any run: `State.SameSpecified`, strengthened in `BUSY`. -/
structure State.SameRun (s t : State) : Prop extends State.SameSpecified s t where
  block : s.phase = .busy → ∃ k, s.SameBlock t k

/-- Two outcomes that answer related states, or refuse alike. -/
def OutcomesAlike (R : State → State → Prop) :
    Host.Outcome State Fault Refusal → Host.Outcome State Fault Refusal → Prop
  | .next u, .next v => R u v
  | .refused q, .refused r => q = r
  | _, _ => False

theorem OutcomesAlike.of_next {R : State → State → Prop} {u : State} {o : Host.Outcome State Fault Refusal}
    (h : OutcomesAlike R (.next u) o) : ∃ v, o = .next v ∧ R u v := by
  cases o with
  | next v => exact ⟨v, rfl, h⟩
  | refused r => exact h.elim
  | fault r => exact h.elim

theorem OutcomesAlike.of_refused {R : State → State → Prop} {q : Refusal} {o : Host.Outcome State Fault Refusal}
    (h : OutcomesAlike R (.refused q) o) : o = .refused q := by
  cases o with
  | refused r => exact congrArg _ (Eq.symm h)
  | next v => exact h.elim
  | fault r => exact h.elim

section
variable {s t : State}

/-- Outside `BUSY` the relation is `State.SameSpecified`. -/
theorem State.SameSpecified.sameRun (h : s.SameSpecified t) (hp : s.phase ≠ .busy) : s.SameRun t :=
  ⟨h, fun hb => absurd hb hp⟩

/-- The relation does not depend on the port and the host's list, as long as they are the same. -/
theorem State.SameRun.withPortHost (h : s.SameRun t) {p q : Option CommandWord} (hp : p = q) {a b : List HostAct}
    (ha : a = b) : State.SameRun { s with port := p, host := a } { t with port := q, host := b } where
  hash := h.hash
  cnt := h.cnt
  phase := h.phase
  fcause := h.fcause
  port := hp
  responses := h.responses
  host := ha
  buf := h.buf
  block := fun hb =>
    let ⟨k, hk⟩ := h.block hb
    ⟨k, { hk with }⟩

/-- What the host's act does depends on the port, the host's list and the phase only. -/
theorem hostActs_congr (hport : s.port = t.port) (hhost : s.host = t.host) (hphase : s.phase = t.phase) :
    s.hostActs.port = t.hostActs.port ∧ s.hostActs.host = t.hostActs.host := by
  have hawait : s.awaiting = t.awaiting := by simp only [State.awaiting, hport, hphase]
  simp only [State.hostActs, hport, hhost, hphase, hawait]
  split
  case h_4 => split <;> simp [hport, hhost]
  case h_5 => split <;> simp [hport, hhost]
  all_goals simp [hport, hhost]

theorem State.SameRun.hostActs (h : s.SameRun t) : s.hostActs.SameRun t.hostActs := by
  obtain ⟨hport, hhost⟩ := hostActs_congr h.port h.host h.phase
  rw [hostActs_eq s, hostActs_eq t]
  exact h.withPortHost hport hhost

theorem State.SameRun.reservedWord (h : s.SameRun t) : s.reservedWord = t.reservedWord := by
  simp only [State.reservedWord, State.presentedWords, h.port, h.host]

/-! ### Commands -/

/-- What a reset leaves is the same wherever the spec gives a value. -/
theorem State.SameRun.resetEvent (h : s.SameRun t) : s.resetEvent.SameRun t.resetEvent :=
  State.SameSpecified.sameRun
    ⟨rfl, rfl, rfl, rfl, rfl, h.responses, h.host, fun _ hlt => absurd hlt (Nat.not_lt_zero _)⟩ (by simp)

theorem State.SameSpecified.respond (h : s.SameSpecified t) (r : Response) :
    (s.respond r).SameSpecified (t.respond r) :=
  { h with responses := by simp [h.responses] }

theorem State.SameSpecified.raise (h : s.SameSpecified t) (c : BlockFault) :
    (s.raise c).SameSpecified (t.raise c) :=
  { h with phase := rfl, fcause := rfl, responses := by simp [h.responses] }

/-- A byte pushed is the same in both machines, as are those below it. -/
theorem State.SameSpecified.push (h : s.SameSpecified t) (d : Byte) {q : Fin 64} (hq : s.cnt.val = q.val) :
    (((s.memWrite q d).writeCnt (cntAfterPush q)).respond .ack).SameSpecified
      (((t.memWrite q d).writeCnt (cntAfterPush q)).respond .ack) := by
  refine { h with cnt := rfl, responses := by simp [h.responses], buf := fun p hlt => ?_ }
  show (s.memWrite q d).readBuf p = (t.memWrite q d).readBuf p
  by_cases hpq : p = q
  · rw [hpq, readBuf_memWrite_self, readBuf_memWrite_self]
  · rw [readBuf_memWrite_ne s d hpq, readBuf_memWrite_ne t d hpq]
    have hne : p.val ≠ q.val := fun e => hpq (Fin.ext e)
    have hlt' : p.val < q.val + 1 := hlt
    exact h.buf p (by omega)

/-- A block begins at position 0, where it has written nothing yet. -/
theorem State.SameSpecified.start (h : s.SameSpecified t) (hc : s.cnt = 64) :
    ((s.writePhase .busy).writeSeq (seqDeser 0)).SameRun ((t.writePhase .busy).writeSeq (seqDeser 0)) where
  toSameSpecified := { h with phase := rfl }
  block := fun _ => ⟨0, by decide, hc, rfl, rfl, fun _ hlt => absurd hlt (Nat.not_lt_zero _),
    fun hle => absurd hle (by decide)⟩

/-- A command in `IDLE` reads nothing that is unspecified there. -/
theorem State.SameSpecified.exec_command_alike (h : s.SameSpecified t) (hp : s.phase = .idle) {w : CommandWord} {i : Instr}
    (hd : decodeCommand w = .ok i) : OutcomesAlike State.SameRun (exec i s) (exec i t) := by
  rcases decodeCommand_cases hd with ⟨rfl, -⟩ | ⟨d, rfl, -⟩ | ⟨rfl, -⟩ | ⟨k, rfl, -⟩ | ⟨n, rfl, -⟩
  · rw [exec_init, exec_init]
    refine State.SameSpecified.sameRun ?_ (by simp [hp])
    exact { h with
      hash := rfl, cnt := rfl, responses := by simp [h.responses]
      buf := fun _ hlt => absurd hlt (Nat.not_lt_zero _) }
  · rcases cnt_full_or_index s.cnt with hc | ⟨q, hq⟩
    · rw [exec_push_of_full d hc, exec_push_of_full d (h.cnt ▸ hc)]
      exact (h.raise .overrun).sameRun (by simp)
    · rw [exec_push_of_lt d hq, exec_push_of_lt d (h.cnt ▸ hq)]
      exact (h.push d hq).sameRun (by simp [hp])
  · by_cases hc : s.cnt = 64
    · rw [exec_start_of_full hc, exec_start_of_full (h.cnt ▸ hc)]
      exact h.start hc
    · rw [exec_start_of_not_full hc, exec_start_of_not_full (h.cnt ▸ hc)]
      exact (h.raise .underrun).sameRun (by simp)
  · rw [exec_rdb, exec_rdb, h.hash]
    exact (h.respond _).sameRun (by simp [hp])
  · rw [exec_rdh, exec_rdh, h.hash]
    exact (h.respond _).sameRun (by simp [hp])

/-! ### Micro-operations -/

/-- `EXPAND i` reads words below `i` only. -/
theorem expandWord_congr {x y : Schedule} {i : Fin 64} (h16 : 16 ≤ i.val)
    (h : ∀ p : Fin 64, p.val < i.val → x[p] = y[p]) : expandWord x i = expandWord y i := by
  have hsrc : ∀ back, 1 ≤ back → x[expandSource i back] = y[expandSource i back] := fun back hb =>
    h _ (by simp only [expandSource]; omega)
  simp only [expandWord, hsrc 16 (by decide), hsrc 15 (by decide), hsrc 7 (by decide), hsrc 2 (by decide)]

/-- The same word written to `W` one above those that agree makes one more that agrees. -/
theorem sched_set_congr {x y : Schedule} {i : Fin 64} (h : ∀ p : Fin 64, p.val < i.val → x[p] = y[p]) (v : Word)
    (p : Fin 64) (hp : p.val < i.val + 1) : (x.set i.val v)[p] = (y.set i.val v)[p] := by
  by_cases he : i.val = p.val
  · simp [he]
  · simpa [he] using h p (by omega)

/-- In `BUSY` all 64 bytes of `BUF` have been pushed, so they agree. -/
theorem State.SameRun.buf_eq (h : s.SameRun t) {k : Nat} (hb : s.SameBlock t k) : s.buf = t.buf :=
  Vector.ext fun p hp => h.buf ⟨p, hp⟩ (by rw [hb.cnt]; exact hp)

/-- A micro-operation that is not the last keeps the relation where it keeps what the block has written. -/
theorem State.SameRun.advance (h : s.SameRun t) {k : Nat} (hb : s.SameBlock t k) (hk : k < 129) {x y : Schedule}
    {v w : WorkVars} (hx : ∀ p : Fin 64, p.val < k + 1 → x[p] = y[p]) (hv : 65 ≤ k + 1 → v = w) :
    State.SameRun { s with sched := x, work := v, seq := seqAt (k + 1) }
      { t with sched := y, work := w, seq := seqAt (k + 1) } where
  toSameSpecified := { h.toSameSpecified with }
  block := fun _ => ⟨k + 1, by omega, hb.cnt, rfl, rfl, hx, hv⟩

/-- The end of a block leaves the same hash state, and the rest of the block's storage unspecified. -/
theorem State.SameRun.exec_addback_alike (h : s.SameRun t) (hwork : s.work = t.work) :
    OutcomesAlike State.SameRun (exec .addback s) (exec .addback t) := by
  rw [exec_addback, exec_addback]
  refine State.SameSpecified.sameRun ?_ (by simp)
  exact { h.toSameSpecified with
    hash := congrArg₂ addBack h.hash hwork
    cnt := rfl
    phase := rfl
    responses := by simp [h.responses]
    buf := fun _ hlt => absurd hlt (Nat.not_lt_zero _) }

/-- A micro-operation at the position of the block reads only what the block has written. -/
theorem State.SameRun.exec_micro_alike (h : s.SameRun t) {k : Nat} (hb : s.SameBlock t k) {i : Instr}
    (hd : decodeMicro s.seq = .ok i) : OutcomesAlike State.SameRun (exec i s) (exec i t) := by
  have hpos : ∀ j, j < 130 → s.seq = seqAt j → k = j := fun j hj hs =>
    seqAt_inj hb.inBlock hj (hb.seq.symm.trans hs)
  rcases decodeMicro_cases hd with ⟨j, rfl, hs⟩ | ⟨j, hj, rfl, hs⟩ | ⟨rfl, hs⟩ | ⟨j, rfl, hs⟩ | ⟨rfl, hs⟩
  · obtain rfl := hpos _ (by omega) (hs.trans (seqDeser_eq_seqAt j))
    rw [exec_deser, exec_deser, nextDeser_eq_seqAt, inputWord_eq_memRead, inputWord_eq_memRead, h.buf_eq hb]
    exact h.advance hb (by omega) (sched_set_congr (i := deserTarget j) hb.sched _) (by omega)
  · obtain rfl := hpos _ (by omega) (hs.trans (seqExpand_eq_seqAt hj))
    rw [exec_expand_of_le hj, exec_expand_of_le hj, nextExpand_eq_seqAt hj, expandWord_congr hj hb.sched]
    exact h.advance hb (by omega) (sched_set_congr hb.sched _) (by omega)
  · obtain rfl := hpos 64 (by decide) hs
    rw [exec_wvinit, exec_wvinit, h.hash]
    exact h.advance hb (by decide) (fun p _ => hb.sched p p.isLt) fun _ => rfl
  · obtain rfl := hpos _ (by omega) (hs.trans (seqRound_eq_seqAt j))
    have hsched : s.readSched j = t.readSched j := hb.sched j (by omega)
    rw [exec_round, exec_round, nextRound_eq_seqAt, hb.work (by omega), hsched]
    exact h.advance hb (by omega) (fun p _ => hb.sched p (by omega)) fun _ => rfl
  · obtain rfl := hpos 129 (by decide) hs
    exact h.exec_addback_alike (hb.work (by decide))

/-! ### Steps and runs -/

/-- Related machines take the same step: the same agent moves, and it reads nothing in which they differ. -/
theorem State.SameRun.step_alike (h : s.SameRun t) : OutcomesAlike State.SameRun (step s) (step t) := by
  by_cases hr : s.host.head? = some .reset
  · obtain ⟨rest, hh⟩ := List.head?_eq_some_iff.mp hr
    rw [step_of_reset hh, step_of_reset (h.host ▸ hh)]
    exact (h.withPortHost h.port (rfl : rest = rest)).resetEvent
  have hr' : t.host.head? ≠ some .reset := h.host ▸ hr
  cases hl : s.reservedWord with
  | some w =>
    rw [step_of_reservedWord hr hl, step_of_reservedWord hr' (h.reservedWord ▸ hl)]
    rfl
  | none =>
    have hl' : t.reservedWord = none := h.reservedWord ▸ hl
    have hact := h.hostActs
    cases hp : s.phase with
    | idle =>
      have hp' : t.phase = .idle := h.phase ▸ hp
      cases hw : s.hostActs.port with
      | none =>
        rw [step_of_idle_empty hp hr hl hw, step_of_idle_empty hp' hr' hl' (hact.port ▸ hw)]
        exact hact
      | some w =>
        obtain ⟨i, hd⟩ := decodeCommand_of_hostActs_port hl hw
        rw [step_of_idle hp hr hl hw hd, step_of_idle hp' hr' hl' (hact.port ▸ hw) hd]
        have hnone := hact.withPortHost (rfl : (none : Option CommandWord) = none) hact.host
        exact hnone.toSameSpecified.exec_command_alike ((hostActs_phase s).trans hp) hd
    | busy =>
      obtain ⟨k, hb⟩ := hact.block ((hostActs_phase s).trans hp)
      obtain ⟨i, hd⟩ := legalSeq_eq_true_iff.mp (legalSeq_seqAt hb.inBlock)
      have hseq := hostActs_seq s ▸ hb.seq
      have hseq' := hostActs_seq t ▸ hb.seq'
      rw [step_of_busy hp hr hl (hseq ▸ hd), step_of_busy (h.phase ▸ hp) hr' hl' (hseq' ▸ hd)]
      exact hact.exec_micro_alike hb (hb.seq ▸ hd)
    | fault =>
      rw [step_of_fault hp hr hl, step_of_fault (h.phase ▸ hp) hr' hl']
      exact hact

/-- Related machines run alike. -/
theorem State.SameRun.runSteps_alike (n : Nat) (h : s.SameRun t) :
    OutcomesAlike State.SameRun (runSteps n s) (runSteps n t) := by
  induction n generalizing s t with
  | zero => exact h
  | succ n ih =>
    have hstep := h.step_alike
    cases hs : step s with
    | next u =>
      obtain ⟨v, ht, huv⟩ := (hs ▸ hstep).of_next
      rw [runSteps_succ_of_next n hs, runSteps_succ_of_next n ht]
      exact ih huv
    | refused q =>
      have ht := (hs ▸ hstep).of_refused
      rw [runSteps_succ_of_refused n hs, runSteps_succ_of_refused n ht]
      rfl
    | fault r => cases r

end

/-- Settles O40, by the relation that `BUSY` strengthens, over any number of steps. -/
theorem unspecifiedStorageIsNeverObserved : Obligations.UnspecifiedStorageIsNeverObserved := by
  intro s t h hp n
  have hrun := (h.sameRun hp).runSteps_alike n
  refine ⟨fun u hu => ?_, fun r hr => (hr ▸ hrun).of_refused⟩
  obtain ⟨v, hv, huv⟩ := (hu ▸ hrun).of_next
  exact ⟨v, hv, huv.toSameSpecified⟩

end Sys2Proof.Machine
end

section
/-! Bytes pushed (R35, item 4): what `BUF` holds below `CNT`, and the run of a host that presents pushes only. -/

namespace Sys2Proof.Machine

/-- The bytes pushed so far: as many as `CNT` says, in the order of `BUF`. -/
structure State.Holds (s : State) (bs : List Byte) : Prop where
  cnt : s.cnt.val = bs.length
  bytes : ∀ (p : Fin 64) (b : Byte), bs[p.val]? = some b → s.readBuf p = b

/-- A core with `CNT = 0` holds no byte. -/
theorem State.Holds.nil {s : State} (h : s.cnt = 0) : s.Holds [] := ⟨by simp [h], by simp⟩

/-- One more byte pushed is the last one held. -/
theorem State.Holds.push {s : State} {bs : List Byte} (h : s.Holds bs) (d : Byte) {q : Fin 64} (hq : s.cnt.val = q.val) :
    (((s.memWrite q d).writeCnt (cntAfterPush q)).respond .ack).Holds (bs ++ [d]) := by
  have hlen : q.val = bs.length := hq.symm.trans h.cnt
  refine ⟨by simp [hlen], fun p b hb => ?_⟩
  show (s.memWrite q d).readBuf p = b
  by_cases hp : p = q
  · subst hp
    rw [hlen, List.getElem?_concat_length] at hb
    cases hb
    exact readBuf_memWrite_self s p d
  · rw [readBuf_memWrite_ne s d hp]
    have hne : p.val ≠ bs.length := fun e => hp (Fin.ext (e.trans hlen.symm))
    obtain ⟨hlt, -⟩ := List.getElem?_eq_some_iff.mp hb
    rw [List.getElem?_append_left (by simp at hlt; omega)] at hb
    exact h.bytes p b hb

/-- 64 bytes held are the whole of `BUF`. -/
theorem State.Holds.buf_eq {s : State} {B : Block} (h : s.Holds B.toList) : s.buf = B :=
  Vector.ext fun p hp => h.bytes ⟨p, hp⟩ B[p] (by simp [hp])

/-- A host that presents a push to an `IDLE` core with an empty port and room in `BUF`. -/
theorem step_of_push {s : State} {d : Byte} {q : Fin 64} {rest : List HostAct} (hp : s.phase = .idle)
    (hn : s.port = none) (hh : s.host = presentAll [.push d] ++ rest) (hq : s.cnt.val = q.val) :
    step s = .next (State.respond (State.writeCnt (State.memWrite { s with host := rest } q d) (cntAfterPush q)) .ack) :=
  (step_of_idle_present hp hn hh (decodeCommand_push d)).trans (exec_push_of_lt d hq)

/-- Settles O38, by induction on the bytes, the last one pushed last. -/
theorem pushedBytesFillTheBuffer : Obligations.PushedBytesFillTheBuffer := by
  intro bs rest s hlen hp hn hc hh
  suffices h : ∃ t, runSteps bs.length s = .next t ∧ t.Holds bs ∧
      (∀ p : Fin 64, bs.length ≤ p.val → t.readBuf p = s.readBuf p) ∧
      t.responses = s.responses ++ List.replicate bs.length .ack ∧
      t = { s with buf := t.buf, cnt := t.cnt, responses := t.responses, host := rest } by
    obtain ⟨t, hrun, hb, ht⟩ := h
    exact ⟨t, hrun, hb.cnt, hb.bytes, ht⟩
  induction bs using List.reverseRecOn generalizing rest with
  | nil => exact ⟨s, rfl, .nil hc, fun _ _ => rfl, by simp, by
    obtain rfl : s.host = rest := hh
    rfl⟩
  | append_singleton bs d ih =>
    rw [List.length_append, List.length_singleton] at hlen ⊢
    obtain ⟨t, hrun, hb, habove, hresp, ht⟩ :=
      ih (presentAll [.push d] ++ rest) (by omega) (by simpa [presentAll] using hh)
    have hq : t.cnt.val = (⟨bs.length, by omega⟩ : Fin 64).val := hb.cnt
    have hstep := step_of_push (by rw [ht]; exact hp) (by rw [ht]; exact hn) (by rw [ht]) hq
    refine ⟨_, runSteps_succ_of_last hrun hstep, State.Holds.push (s := { t with host := rest }) { hb with } d hq,
      fun p hle => ?_, ?_, ?_⟩
    · exact (readBuf_memWrite_ne { t with host := rest } d (by simp [Fin.ext_iff]; omega)).trans (habove p (by omega))
    · simp [hresp, List.replicate_succ']
    · rw [ht]
      rfl

end Sys2Proof.Machine
end

section
/-! Host programs (R162, R206, R210, R212): the commands a host has still to have answered, how an `IDLE` core serves one
command, a block and a whole message, in both styles of issuing them; with that the run of `HASH m`. -/

namespace Sys2Proof.Machine

/-! ### What the host will still do -/

/-- The host's acts for a list of commands: with each response awaited, or each presented at the first chance. -/
def hostProgram (awaited : Bool) (is : List Instr) : List HostAct :=
  bif awaited then issueAll is else presentAll is

/-- What follows a presented command in either style. -/
def awaitActs (awaited : Bool) : List HostAct := bif awaited then [.await] else []

/-- What the host has begun and will do: the word at the port as if it were still to be presented, then its acts. -/
def State.pending (s : State) : List HostAct := s.port.toList.map .present ++ s.host

theorem pending_of_empty {s : State} (h : s.port = none) : s.pending = s.host := by simp [State.pending, h]

theorem pending_of_held {s : State} {w : CommandWord} (h : s.port = some w) : s.pending = .present w :: s.host := by
  simp [State.pending, h]

@[simp] theorem hostProgram_nil (a : Bool) : hostProgram a [] = [] := by cases a <;> rfl

theorem hostProgram_cons (a : Bool) {i : Instr} {w : CommandWord} (hi : encode i = .command w) (is : List Instr) :
    hostProgram a (i :: is) = .present w :: (awaitActs a ++ hostProgram a is) := by
  cases a with
  | true => simp [hostProgram, awaitActs, issueAll, issue, hi]
  | false => simp [hostProgram, awaitActs, presentAll, presentEarly, hi]

/-- A program consists of commands presented, and of acts of awaiting where it awaits. -/
theorem mem_hostProgram {a : Bool} {is : List Instr} {x : HostAct} (h : x ∈ hostProgram a is) :
    (∃ w, x = .present w ∧ legalCommand w = true) ∨ (a = true ∧ x = .await) := by
  induction is with
  | nil => simp at h
  | cons i is ih =>
    cases he : encode i with
    | command w =>
      rw [hostProgram_cons a he, List.mem_cons, List.mem_append] at h
      rcases h with rfl | h | h
      · exact .inl ⟨w, rfl, legalCommand_of_decode (decodeCommand_eq_ok_iff.mpr he)⟩
      · cases a with
        | true => exact .inr ⟨rfl, List.mem_singleton.mp h⟩
        | false => cases h
      · exact ih h
    | seq w =>
      refine ih ?_
      cases a with
      | true => simpa [hostProgram, issueAll, issue, he] using h
      | false => simpa [hostProgram, presentAll, presentEarly, he] using h

/-- Each command of a program is presented once. -/
theorem length_words_hostProgram (a : Bool) {is : List Instr} (h : ∀ i ∈ is, ∃ w, encode i = .command w) :
    ((hostProgram a is).filterMap HostAct.word).length = is.length := by
  induction is with
  | nil => simp
  | cons i is ih =>
    obtain ⟨w, hw⟩ := h i (by simp)
    have hawait : (awaitActs a).filterMap HostAct.word = [] := by cases a <;> rfl
    rw [hostProgram_cons a hw, List.filterMap_cons_some (f := HostAct.word) (b := w) rfl, List.filterMap_append, hawait,
      List.nil_append, List.length_cons, ih fun j hj => h j (by simp [hj]), List.length_cons]

/-- A program after a command: what the host does next is to await, to present a command, or nothing. -/
theorem mem_awaitActs_hostProgram {a : Bool} {is : List Instr} {x : HostAct} (h : x ∈ awaitActs a ++ hostProgram a is) :
    (∃ w, x = .present w ∧ legalCommand w = true) ∨ (a = true ∧ x = .await) := by
  rcases List.mem_append.mp h with h | h
  · cases a with
    | true => exact .inr ⟨rfl, List.mem_singleton.mp h⟩
    | false => cases h
  · exact mem_hostProgram h

theorem reset_not_mem_awaitActs_hostProgram (a : Bool) (is : List Instr) :
    HostAct.reset ∉ awaitActs a ++ hostProgram a is := fun h => by
  simpa using mem_awaitActs_hostProgram h

theorem legal_of_mem_awaitActs_hostProgram {a : Bool} {is : List Instr} {x : HostAct}
    (h : x ∈ awaitActs a ++ hostProgram a is) : x.legal = true := by
  rcases mem_awaitActs_hostProgram h with ⟨w, rfl, hw⟩ | ⟨-, rfl⟩
  · simp [HostAct.legal, HostAct.word, hw]
  · rfl

/-! ### The host during a block -/

/-- In `BUSY` nothing of the host's program can be lost: it awaits, or it only presents. -/
def State.HostWaits (s : State) : Prop := s.host.head? = some .await ∨ ∀ a ∈ s.host, ∃ w, a = .present w

theorem State.HostWaits.head_ne_reset {s : State} (h : s.HostWaits) : s.host.head? ≠ some .reset := by
  rcases h with h | h
  · simp [h]
  · intro hr
    obtain ⟨w, hw⟩ := h _ (List.mem_of_mem_head? hr)
    cases hw

/-- A word that comes to the port in `BUSY` is held there, the rest of the program waits. -/
theorem hostActs_pending {s : State} (hp : s.phase = .busy) (hw : s.HostWaits) :
    s.hostActs.pending = s.pending ∧ s.hostActs.HostWaits := by
  cases hh : s.host with
  | nil => rw [hostActs_of_nil hh]; exact ⟨rfl, hw⟩
  | cons a rest =>
    rcases hw with ha | ha
    · obtain rfl : a = .await := by simpa [hh] using ha
      rw [hostActs_of_await hh (awaiting_of_busy hp)]
      exact ⟨rfl, .inl ha⟩
    · obtain ⟨w, rfl⟩ := ha a (by simp [hh])
      cases hs : s.port with
      | none =>
        rw [hostActs_of_present hh hs]
        exact ⟨by simp [State.pending, hs, hh], .inr fun b hb => ha b (by simp [hh, show b ∈ rest from hb])⟩
      | some v =>
        rw [hostActs_of_present_held hh hs (by simp [hp])]
        exact ⟨rfl, .inr ha⟩

/-- A step in `BUSY` leaves the whole program for later. -/
theorem step_pending_of_busy {s t : State} (hp : s.phase = .busy) (hw : s.HostWaits) (h : step s = .next t) :
    t.pending = s.pending ∧ t.HostWaits := by
  obtain ⟨hport, hhost⟩ := step_port_host_of_busy hp hw.head_ne_reset h
  obtain ⟨hpend, hwait⟩ := hostActs_pending hp hw
  simpa only [State.pending, State.HostWaits, hport, hhost] using And.intro hpend hwait

/-- So does a run that is `BUSY` before each of its steps. -/
theorem runSteps_pending_of_busy (n : Nat) {s t : State} (hw : s.HostWaits) (h : runSteps n s = .next t)
    (hb : ∀ (j : Nat) (u : State), j < n → runSteps j s = .next u → u.phase = .busy) : t.pending = s.pending := by
  induction n generalizing s with
  | zero => cases h; rfl
  | succ n ih =>
    cases hs : step s with
    | next u =>
      obtain ⟨hpend, hwait⟩ := step_pending_of_busy (hb 0 s (Nat.succ_pos n) rfl) hw hs
      rw [← hpend]
      exact ih hwait ((runSteps_succ_of_next n hs).symm.trans h) fun j v hj hv =>
        hb (j + 1) v (Nat.succ_lt_succ hj) ((runSteps_succ_of_next j hs).trans hv)
    | refused r => rw [runSteps_succ_of_refused n hs] at h; cases h
    | fault r => cases r

/-! ### An idle core serves one command -/

/-- An `IDLE` core with the hash state `x` and the bytes `bs` pushed, that has answered `rs`. -/
structure State.IdleWith (s : State) (x : HashWords) (bs : List Byte) (rs : List Response) : Prop where
  phase : s.phase = .idle
  hash : s.hash = x
  holds : s.Holds bs
  responses : s.responses = rs

/-- `n` steps lead to such a core, and the commands `is` are still to come. -/
def State.Reaches (awaited : Bool) (s : State) (n : Nat) (x : HashWords) (bs : List Byte) (rs : List Response)
    (is : List Instr) : Prop :=
  ∃ t, runSteps n s = .next t ∧ t.IdleWith x bs rs ∧ t.pending = hostProgram awaited is

section
variable {a : Bool} {s : State} {x y : HashWords} {bs cs : List Byte} {rs qs : List Response} {i : Instr}
  {is js : List Instr}

theorem State.Reaches.trans {m n : Nat} (h : s.Reaches a m x bs rs is)
    (hn : ∀ t : State, t.IdleWith x bs rs → t.pending = hostProgram a is → t.Reaches a n y cs qs js) :
    s.Reaches a (m + n) y cs qs js := by
  obtain ⟨t, hrun, hidle, hpend⟩ := h
  obtain ⟨u, hrun', hu⟩ := hn t hidle hpend
  exact ⟨u, (runSteps_add_of_next n hrun).trans hrun', hu⟩

/-- The next command of a program is accepted in one step, wherever it stands. -/
theorem step_of_program {w : CommandWord} (hp : s.phase = .idle) (hi : encode i = .command w)
    (hpend : s.pending = hostProgram a (i :: is)) :
    step s = exec i { s with port := none, host := awaitActs a ++ hostProgram a is } := by
  rw [hostProgram_cons a hi] at hpend
  have hd : decodeCommand w = .ok i := decodeCommand_eq_ok_iff.mpr hi
  cases hs : s.port with
  | none =>
    rw [pending_of_empty hs] at hpend
    rw [step_of_idle_present hp hs hpend hd, hs]
  | some v =>
    rw [pending_of_held hs] at hpend
    obtain ⟨hv, hhost⟩ := List.cons.inj hpend
    cases hv
    rw [step_of_idle_waiting hp hs (fun b hb => ?_) hd, hhost]
    exact (mem_awaitActs_hostProgram (hhost ▸ List.mem_of_mem_head? hb)).symm.imp_left And.right

/-- An idle core that has answered lets an act of awaiting pass. -/
theorem State.IdleWith.pass_await (h : s.IdleWith x bs rs) (hpend : s.pending = awaitActs a ++ hostProgram a is) :
    s.Reaches a a.toNat x bs rs is := by
  cases a with
  | false => exact ⟨s, rfl, h, hpend⟩
  | true =>
    have hn : s.port = none := by
      cases hs : s.port with
      | none => rfl
      | some v => rw [pending_of_held hs] at hpend; cases hpend
    have hh : s.host = .await :: hostProgram true is := (pending_of_empty hn).symm.trans hpend
    have hstep := step_of_idle_unpresented h.phase hn (by simp [hh])
    rw [hostActs_of_answered hh (by simp [awaiting_of_idle h.phase, hn])] at hstep
    refine ⟨_, runSteps_succ_of_next 0 hstep, { h with holds := { h.holds with } }, pending_of_empty hn⟩

/-- A command that answers at once takes one step, and one more where the host awaits. -/
theorem reaches_of_command {w : CommandWord} (hp : s.phase = .idle) (hi : encode i = .command w)
    (hpend : s.pending = hostProgram a (i :: is))
    (he : ∀ acts, ∃ t, exec i { s with port := none, host := acts } = .next t ∧ t.IdleWith y cs qs) :
    s.Reaches a (1 + a.toNat) y cs qs is := by
  obtain ⟨t, ht, hidle⟩ := he (awaitActs a ++ hostProgram a is)
  obtain ⟨hport, hhost⟩ := exec_port_host ht
  obtain ⟨u, hrun, hu⟩ := hidle.pass_await (a := a) (is := is) ((pending_of_empty hport).trans hhost)
  refine ⟨u, ?_, hu⟩
  rw [Nat.add_comm, runSteps_succ_of_next _ ((step_of_program hp hi hpend).trans ht), hrun]

theorem reaches_of_init (hp : s.phase = .idle) (hpend : s.pending = hostProgram a (.init :: is)) :
    s.Reaches a (1 + a.toNat) IV [] (s.responses ++ [.ack]) is :=
  reaches_of_command hp rfl hpend fun _ => ⟨_, exec_init _, hp, rfl, .nil rfl, rfl⟩

theorem State.IdleWith.reaches_of_push (h : s.IdleWith x bs rs) (d : Byte) (hlt : bs.length < 64)
    (hpend : s.pending = hostProgram a (.push d :: is)) :
    s.Reaches a (1 + a.toNat) x (bs ++ [d]) (rs ++ [.ack]) is :=
  reaches_of_command h.phase rfl hpend fun acts =>
    have hq : s.cnt.val = (⟨bs.length, hlt⟩ : Fin 64).val := h.holds.cnt
    have hholds : State.Holds { s with port := none, host := acts } bs := { h.holds with }
    ⟨_, exec_push_of_lt d hq, h.phase, h.hash, hholds.push d hq, by simp [h.responses]⟩

theorem State.IdleWith.reaches_of_rdh (h : s.IdleWith x bs rs) (n : Fin 64)
    (hpend : s.pending = hostProgram a (.rdh n :: is)) :
    s.Reaches a (1 + a.toNat) x bs (rs ++ [.data (digestChar x n)]) is :=
  reaches_of_command h.phase rfl hpend fun _ =>
    ⟨_, exec_rdh n _, h.phase, h.hash, { h.holds with }, by simp [h.responses, h.hash, digestChar]⟩

/-- What a host program leaves to do after a command waits for as long as the core is `BUSY`. -/
theorem hostWaits_of_program (hh : s.host = awaitActs a ++ hostProgram a is) : s.HostWaits := by
  cases a with
  | true => exact .inl (by rw [hh]; rfl)
  | false =>
    refine .inr fun b hb => ?_
    rcases mem_awaitActs_hostProgram (hh ▸ hb) with ⟨w, hbw, -⟩ | ⟨hf, -⟩
    · exact ⟨w, hbw⟩
    · cases hf

/-- The 130 steps of a block over which a host program waits. -/
theorem run_block_of_program (hp : s.phase = .busy) (hq : s.seq = 0x000#9) (hn : s.port = none)
    (hh : s.host = awaitActs a ++ hostProgram a is) :
    ∃ t, runSteps 130 s = .next t ∧ t.IdleWith (compress s.hash s.buf) [] (s.responses ++ [.ack]) ∧
      t.pending = awaitActs a ++ hostProgram a is := by
  have hr : HostAct.reset ∉ s.host := hh ▸ reset_not_mem_awaitActs_hostProgram a is
  have hg : s.LegalHost := ⟨by simp [hn], fun _ hb => legal_of_mem_awaitActs_hostProgram (hh ▸ hb)⟩
  obtain ⟨t, hrun, hidle, hcnt, hhash, -, hresp⟩ := (BlockAt.zero hp hq hr hg).finish
  obtain ⟨t', -, -, -, -, hbusy⟩ := block_ends 129 (k := 0) rfl hp hq hr hg
  have hpend := runSteps_pending_of_busy 130 (hostWaits_of_program hh) hrun hbusy
  exact ⟨t, hrun, ⟨hidle, hhash, .nil hcnt, hresp⟩, hpend.trans ((pending_of_empty hn).trans hh)⟩

/-- `START` with a whole block pushed takes one step, and the 130 of the block. -/
theorem State.IdleWith.reaches_of_start {B : Block} (h : s.IdleWith x B.toList rs)
    (hpend : s.pending = hostProgram a (.start :: is)) :
    s.Reaches a (131 + a.toNat) (compress x B) [] (rs ++ [.ack]) is := by
  have hc : s.cnt = 64 := Fin.ext (h.holds.cnt.trans B.size_toArray)
  have hstep := (step_of_program h.phase rfl hpend).trans (exec_start_of_full hc)
  obtain ⟨t, hrun, ht, hwait⟩ := run_block_of_program (a := a) (is := is)
    (s := State.writeSeq (State.writePhase { s with port := none, host := awaitActs a ++ hostProgram a is } .busy)
      (seqDeser 0)) rfl rfl rfl rfl
  obtain ⟨v, hrunv, hv⟩ := ht.pass_await hwait
  rw [← h.hash, ← h.holds.buf_eq, ← h.responses]
  refine ⟨v, ?_, hv⟩
  rw [runSteps_add_of_next _ ((runSteps_succ_of_next 130 hstep).trans hrun), hrunv]

/-! ### Blocks, messages, digests -/

/-- Pushes, one after the other, as long as there is room. -/
theorem State.IdleWith.reaches_of_pushes (ds : List Byte) (h : s.IdleWith x bs rs) (hle : bs.length + ds.length ≤ 64)
    (hpend : s.pending = hostProgram a (ds.map .push ++ is)) :
    s.Reaches a (ds.length * (1 + a.toNat)) x (bs ++ ds) (rs ++ List.replicate ds.length .ack) is := by
  induction ds generalizing s bs rs with
  | nil => exact ⟨s, by simp, by simpa using h, hpend⟩
  | cons d ds ih =>
    rw [List.length_cons] at hle
    have hrest := (h.reaches_of_push d (by omega) hpend).trans fun t ht hp =>
      ih ht (by rw [List.length_append, List.length_singleton]; omega) hp
    rw [List.length_cons, Nat.add_mul, Nat.one_mul, Nat.add_comm (ds.length * _)]
    simpa [List.replicate_succ] using hrest

/-- `BLOCK` (R75): 64 pushes and a `START`. -/
theorem State.IdleWith.reaches_of_block {B : Block} (h : s.IdleWith x [] rs)
    (hpend : s.pending = hostProgram a (blockCommands B ++ is)) :
    s.Reaches a (195 + 65 * a.toNat) (compress x B) [] (rs ++ List.replicate 65 .ack) is := by
  have hlen : B.toList.length = 64 := B.size_toArray
  have hpush := h.reaches_of_pushes (is := .start :: is) B.toList (by simp) (by simpa [blockCommands] using hpend)
  have hstart := hpush.trans fun t ht hp => (show t.IdleWith x B.toList _ from ht).reaches_of_start hp
  have hsteps : B.toList.length * (1 + a.toNat) + (131 + a.toNat) = 195 + 65 * a.toNat := by rw [hlen]; omega
  rw [hsteps, hlen, List.append_assoc, ← List.replicate_succ'] at hstart
  exact hstart

/-- `INIT` and the first `n` blocks of a padded message (R162, R164). -/
theorem reaches_of_message (m : List Byte) (n : Nat) (hp : s.phase = .idle)
    (hpend : s.pending = hostProgram a (messageCommands m n ++ is)) :
    s.Reaches a (1 + a.toNat + n * (195 + 65 * a.toNat)) (hashAfter m n) []
      (s.responses ++ List.replicate (1 + 65 * n) .ack) is := by
  induction n generalizing is with
  | zero => simpa [hashAfter] using reaches_of_init hp hpend
  | succ n ih =>
    have hblocks : messageCommands m (n + 1) ++ is =
        messageCommands m n ++ (blockCommands (blockAt (pad m) n) ++ is) := by
      simp [messageCommands, List.range_succ]
    have hnext := (ih (hblocks ▸ hpend)).trans fun t ht hq => ht.reaches_of_block hq
    rw [List.append_assoc, List.replicate_append_replicate] at hnext
    have hsteps : ∀ c, 1 + a.toNat + n * c + c = 1 + a.toNat + (n + 1) * c := fun c => by ring
    rw [hsteps] at hnext
    exact hnext

/-- Reads of the digest, one after the other. -/
theorem State.IdleWith.reaches_of_rdhs (ns : List (Fin 64)) (h : s.IdleWith x bs rs)
    (hpend : s.pending = hostProgram a (ns.map .rdh ++ is)) :
    s.Reaches a (ns.length * (1 + a.toNat)) x bs (rs ++ ns.map fun n => .data (digestChar x n)) is := by
  induction ns generalizing s rs with
  | nil => exact ⟨s, by simp, by simpa using h, hpend⟩
  | cons n ns ih =>
    have hrest := (h.reaches_of_rdh n hpend).trans fun t ht hp => ih ht hp
    rw [List.length_cons, Nat.add_mul, Nat.one_mul, Nat.add_comm (ns.length * _)]
    simpa using hrest

/-- `HASH m` (R75): the message, then the 64 characters of its digest. -/
theorem reaches_of_hash (m : List Byte) (hp : s.phase = .idle) (hpend : s.pending = hostProgram a (hashCommands m)) :
    s.Reaches a (65 * (1 + a.toNat) + blockCount m.length * (195 + 65 * a.toNat))
      (hashAfter m (blockCount m.length)) []
      (s.responses ++
        (List.replicate (1 + 65 * blockCount m.length) .ack ++ (sha256Hex m).map Response.data)) [] := by
  have hread := (reaches_of_message m _ hp hpend).trans fun t ht hq =>
    ht.reaches_of_rdhs (is := []) (List.finRange 64) (by simpa [hexDigestCommands] using hq)
  have hsteps : ∀ k, 1 + a.toNat + k + (List.finRange 64).length * (1 + a.toNat) = 65 * (1 + a.toNat) + k := fun k => by
    rw [List.length_finRange]
    omega
  rw [hsteps, List.append_assoc] at hread
  simpa [sha256Hex, digestHex, Function.comp_def] using hread

/-! ### The run of `HASH m` -/

/-- Over a run without a reset the host stays without one, and presents only commands. -/
theorem runSteps_host (n : Nat) {t : State} (hr : HostAct.reset ∉ s.host) (hg : s.LegalHost)
    (h : runSteps n s = .next t) : HostAct.reset ∉ t.host ∧ t.LegalHost := by
  induction n generalizing s with
  | zero => cases h; exact ⟨hr, hg⟩
  | succ n ih =>
    cases hs : step s with
    | next u => exact ih (step_no_reset hr hs) (step_legalHost hr hg hs) ((runSteps_succ_of_next n hs).symm.trans h)
    | refused r => rw [runSteps_succ_of_refused n hs] at h; cases h
    | fault r => cases r

/-- A run without a reset that ends outside `FAULT` has never been there: there is no way out (R185). -/
theorem no_fault_of_end {n k : Nat} {t u : State} (hr : HostAct.reset ∉ s.host) (hg : s.LegalHost)
    (h : runSteps n s = .next t) (ht : t.phase ≠ .fault) (hk : k ≤ n) (hu : runSteps k s = .next u) :
    u.phase ≠ .fault := by
  intro hf
  obtain ⟨d, rfl⟩ := Nat.exists_eq_add_of_le hk
  obtain ⟨hr', hg'⟩ := runSteps_host k hr hg hu
  obtain ⟨p, acts, hrun, -⟩ := runSteps_of_fault d hf hr' hg'
  rw [runSteps_add_of_next d hu, hrun] at h
  cases h
  exact ht hf

theorem hashCommands_length (m : List Byte) : (hashCommands m).length = 1 + 65 * blockCount m.length + 64 := by
  simp [hashCommands, messageCommands, hexDigestCommands, blockCommands, List.length_flatMap]
  omega

/-- `HASH m` issues host commands only. -/
theorem encode_hashCommands {m : List Byte} (h : i ∈ hashCommands m) : ∃ w, encode i = .command w := by
  simp only [hashCommands, messageCommands, hexDigestCommands, blockCommands, List.mem_append, List.mem_flatMap,
    List.mem_map, List.mem_singleton] at h
  rcases h with (rfl | ⟨_, -, ⟨d, -, rfl⟩ | rfl⟩) | ⟨n, -, rfl⟩
  all_goals exact ⟨_, rfl⟩

/-- The run of `HASH m` in either style. -/
theorem hash_run (a : Bool) (m : List Byte) (hp : s.phase = .idle) (hn : s.port = none)
    (hh : s.host = hostProgram a (hashCommands m)) {n : Nat}
    (hsteps : 65 * (1 + a.toNat) + blockCount m.length * (195 + 65 * a.toNat) = n) :
    ∃ t, RunEndedWell s n t ∧ t.responses = s.responses ++ (runResults s t).1 ∧
      runResults s t = (List.replicate (1 + 65 * blockCount m.length) .ack ++ (sha256Hex m).map Response.data,
        hashAfter m (blockCount m.length)) := by
  obtain ⟨t, hrun, ht, hpend⟩ := reaches_of_hash m hp ((pending_of_empty hn).trans hh)
  rw [hsteps] at hrun
  have hr : HostAct.reset ∉ s.host := fun h =>
    reset_not_mem_awaitActs_hostProgram a (hashCommands m) (List.mem_append_right _ (hh ▸ h))
  have hg : s.LegalHost := ⟨by simp [hn], fun b hb => legal_of_mem_awaitActs_hostProgram (a := a) (is := hashCommands m)
    (List.mem_append_right _ (hh ▸ hb))⟩
  have hresults : runResults s t = (List.replicate (1 + 65 * blockCount m.length) .ack ++
      (sha256Hex m).map Response.data, hashAfter m (blockCount m.length)) := by
    rw [runResults, ht.responses, List.drop_left, ht.hash]
  refine ⟨t, ⟨⟨hrun, ?_, ?_⟩, ht.phase, fun k u hk hu => no_fault_of_end hr hg hrun (by simp [ht.phase]) hk hu⟩,
    by rw [hresults]; exact ht.responses, hresults⟩
  · exact (List.append_eq_nil_iff.mp (hpend.trans (hostProgram_nil a))).2
  · have hhex : (sha256Hex m).length = 64 := by simp [sha256Hex, digestHex]
    have hwords := length_words_hostProgram a (is := hashCommands m) fun i hi => encode_hashCommands hi
    rw [← hh, hashCommands_length] at hwords
    simp [ht.responses, State.commandsToAnswer, hwords, hn, hp, hhex]

end

/-- Settles O42: both styles are one run, with one step more for each command where its response is awaited. -/
theorem hashCommandsAnswerTheMessageDigest : Obligations.HashCommandsAnswerTheMessageDigest := by
  intro m s _ hp hn
  refine ⟨fun hh => hash_run true m hp hn hh ?_, fun hh => hash_run false m hp hn hh ?_⟩
  · simp only [Bool.toNat_true]
    ring
  · simp only [Bool.toNat_false]
    ring

end Sys2Proof.Machine
end

section
/-! The block functions and the digest (R22, R23, R121, R130, R139, R140, R150 to R154, R164): the schedule as the one
solution of its recurrence, the inverse of a round, the two views of a digest, and the values of section 3 of the vectors. -/

namespace Sys2Proof.Machine

/-! ### The schedule (R130) -/

/-- A 64-tuple with the input words and the recurrence is the schedule, word by word. -/
theorem eq_schedule_of_recurrence {B : Block} {w : Schedule}
    (hinput : ∀ j : Fin 16, w[deserTarget j] = inputWord B j)
    (hrec : ∀ i : Fin 64, 16 ≤ i.val → w[i] = expandWord w i) : w = schedule B := by
  have hword : ∀ n (hn : n < 64), w[(⟨n, hn⟩ : Fin 64)] = (schedule B)[(⟨n, hn⟩ : Fin 64)] := by
    intro n
    induction n using Nat.strong_induction_on with
    | _ n ih =>
      intro hn
      by_cases h : n < 16
      · exact (hinput ⟨n, h⟩).trans (schedule_input B ⟨n, h⟩).symm
      · have h16 : 16 ≤ (⟨n, hn⟩ : Fin 64).val := Nat.le_of_not_lt h
        rw [hrec _ h16, schedule_derived B h16, expandWord_congr h16 fun p hp => ih p.val hp p.isLt]
  exact Vector.ext hword

/-- The derived word by the indices it reads. -/
theorem expandWord_of_val_add (w : Schedule) {i p16 p15 p7 p2 : Fin 64} (h16 : p16.val + 16 = i.val)
    (h15 : p15.val + 15 = i.val) (h7 : p7.val + 7 = i.val) (h2 : p2.val + 2 = i.val) :
    expandWord w i = w[p16] + ssig0 w[p15] + w[p7] + ssig1 w[p2] := by
  simp only [expandWord, expandSource_of_val_add h16, expandSource_of_val_add h15, expandSource_of_val_add h7,
    expandSource_of_val_add h2]

/-- Settles O50: the schedule has the input words and the recurrence, and these determine every word. -/
theorem scheduleIsTheUniqueSolution : Obligations.ScheduleIsTheUniqueSolution := by
  refine fun B w => ⟨?_, fun ⟨hinput, hrec⟩ => ?_⟩
  · rintro rfl
    refine ⟨fun j p hp => ?_, fun i p16 p15 p7 p2 h16 h15 h7 h2 => ?_⟩
    · obtain rfl : p = deserTarget j := Fin.ext hp
      exact schedule_input B j
    · rw [schedule_derived B (by omega), expandWord_of_val_add _ h16 h15 h7 h2]
  · refine eq_schedule_of_recurrence (fun j => hinput j _ rfl) fun i hi => ?_
    have hsrc : ∀ back ≤ 16, (expandSource i back).val + back = i.val := fun back hb =>
      Nat.sub_add_cancel (hb.trans hi)
    rw [hrec i _ _ _ _ (hsrc 16 (by decide)) (hsrc 15 (by decide)) (hsrc 7 (by decide)) (hsrc 2 (by decide))]
    rfl

/-! ### The round (R139, R140) -/

/-- The working variables before a round with `k` and `w`: six have moved, `t2` is that of the three that moved from `a`,
`b`, `c`, and then `t1` gives `d` and `h`. -/
def roundInverse (k w : Word) (v : WorkVars) : WorkVars :=
  let t1 := v.a - (bsig0 v.b + maj v.b v.c v.d)
  { a := v.b, b := v.c, c := v.d, d := v.e - t1, e := v.f, f := v.g, g := v.h
    h := t1 - (bsig1 v.f + ch v.f v.g v.h + k + w) }

theorem roundInverse_compressionRound (k w : Word) (v : WorkVars) :
    roundInverse k w (compressionRound v k w) = v := by
  have hh : roundT1 v k w - (bsig1 v.e + ch v.e v.f v.g + k + w) = v.h := by
    rw [roundT1]
    ring
  simp only [roundInverse, compressionRound, roundT2, add_sub_cancel_right, hh]

theorem compressionRound_roundInverse (k w : Word) (v : WorkVars) :
    compressionRound (roundInverse k w v) k w = v := by
  have ht1 : roundT1 (roundInverse k w v) k w = v.a - (bsig0 v.b + maj v.b v.c v.d) := by
    simp only [roundT1, roundInverse]
    ring
  simp only [compressionRound, ht1]
  simp [roundInverse, roundT2]

/-- Settles O51, by the inverse. -/
theorem roundIsABijection : Obligations.RoundIsABijection := fun k w =>
  Function.bijective_iff_has_inverse.mpr
    ⟨roundInverse k w, roundInverse_compressionRound k w, compressionRound_roundInverse k w⟩

/-- Settles O52: each round moves six of the variables by one place. -/
theorem roundsFormAShiftRegister : Obligations.RoundsFormAShiftRegister := fun _ _ _ =>
  ⟨rfl, rfl, rfl, rfl, rfl, rfl⟩

/-! ### The views of a digest (R153, R154) -/

/-- The nibble of character `2k` is the high half of byte `k`. -/
theorem digestNibble_even (x : HashWords) {k : Fin 32} {n : Fin 64} (hn : n.val = 2 * k.val) :
    digestNibble x n = (digestByte x k).extractLsb 7 4 := by
  have hword : rdhWord n = rdbWord k := Fin.ext (by simp only [rdhWord, rdbWord]; omega)
  have hexp : 4 * (7 - n.val % 8) = 8 * (3 - k.val % 4) + 4 := by omega
  apply BitVec.eq_of_toNat_eq
  rw [digestNibble_toNat, BitVec.extractLsb_toNat, digestByte_toNat, Nat.shiftRight_eq_div_pow]
  simp only [hword, hexp, pow_add, ← Nat.div_div_eq_div_mul]
  omega

/-- The nibble of character `2k + 1` is the low half of byte `k`. -/
theorem digestNibble_odd (x : HashWords) {k : Fin 32} {n : Fin 64} (hn : n.val = 2 * k.val + 1) :
    digestNibble x n = (digestByte x k).extractLsb 3 0 := by
  have hword : rdhWord n = rdbWord k := Fin.ext (by simp only [rdhWord, rdbWord]; omega)
  have hexp : 4 * (7 - n.val % 8) = 8 * (3 - k.val % 4) := by omega
  apply BitVec.eq_of_toNat_eq
  rw [digestNibble_toNat, BitVec.extractLsb_toNat, digestByte_toNat, Nat.shiftRight_eq_div_pow]
  simp only [hword, hexp]
  omega

/-- The sixteen digits have different codes. -/
theorem hexchar_injective : ∀ u v : BitVec 4, hexchar u = hexchar v → u = v := by decide

/-- The codes of the digits are those of `0..9` and `a..f`. -/
theorem hexchar_range : ∀ v : BitVec 4, (0x30 ≤ (hexchar v).toNat ∧ (hexchar v).toNat ≤ 0x39) ∨
    (0x61 ≤ (hexchar v).toNat ∧ (hexchar v).toNat ≤ 0x66) := by decide

/-- Each word of a hash state is made of four of its digest bytes. -/
theorem getElem_eq_be32_digestByte (x : HashWords) (j : Fin 8) :
    x[j] = be32 (digestByte x ⟨4 * j.val, by omega⟩) (digestByte x ⟨4 * j.val + 1, by omega⟩)
      (digestByte x ⟨4 * j.val + 2, by omega⟩) (digestByte x ⟨4 * j.val + 3, by omega⟩) := by
  have hbyte : ∀ (l : Fin 4) (h : 4 * j.val + l.val < 32), digestByte x ⟨4 * j.val + l.val, h⟩ = byteLane x[j] l := by
    intro l h
    have hword : rdbWord ⟨4 * j.val + l.val, h⟩ = j := Fin.ext (by simp only [rdbWord]; omega)
    have hlane : rdbLane ⟨4 * j.val + l.val, h⟩ = l := Fin.ext (by simp only [rdbLane]; omega)
    simp only [digestByte, hword, hlane]
  exact (be32_byteLane x[j]).symm.trans
    (congr (congr (congrArg₂ be32 (hbyte 0 _).symm (hbyte 1 _).symm) (hbyte 2 _).symm) (hbyte 3 _).symm)

/-- The digest bytes determine the hash state. -/
theorem hash_eq_of_digestByte_eq {x y : HashWords} (h : ∀ k, digestByte x k = digestByte y k) : x = y :=
  Vector.ext fun j hj => by
    have hx := getElem_eq_be32_digestByte x ⟨j, hj⟩
    have hy := getElem_eq_be32_digestByte y ⟨j, hj⟩
    simp only [h] at hx
    exact hx.trans hy.symm

/-- A byte is its two digits. -/
theorem byte_eq_of_halves_eq {b c : Byte} (hhi : b.extractLsb 7 4 = c.extractLsb 7 4)
    (hlo : b.extractLsb 3 0 = c.extractLsb 3 0) : b = c := by
  have hb := b.isLt
  have hc := c.isLt
  simp only [← BitVec.toNat_inj, BitVec.extractLsb_toNat, Nat.shiftRight_eq_div_pow] at hhi hlo ⊢
  omega

/-- The digest characters determine the digest bytes. -/
theorem digestByte_eq_of_digestChar_eq {x y : HashWords} (h : ∀ n, digestChar x n = digestChar y n) (k : Fin 32) :
    digestByte x k = digestByte y k := by
  have hnib : ∀ n, digestNibble x n = digestNibble y n := fun n => hexchar_injective _ _ (h n)
  refine byte_eq_of_halves_eq ?_ ?_
  · have he : (⟨2 * k.val, by omega⟩ : Fin 64).val = 2 * k.val := rfl
    rw [← digestNibble_even x he, ← digestNibble_even y he, hnib]
  · have ho : (⟨2 * k.val + 1, by omega⟩ : Fin 64).val = 2 * k.val + 1 := rfl
    rw [← digestNibble_odd x ho, ← digestNibble_odd y ho, hnib]

/-- Settles O57: the two halves of each byte are the digits of two characters, the codes of the digits differ, and four
bytes make each word. -/
theorem digestViewsAgreeAndAreInjective : Obligations.DigestViewsAgreeAndAreInjective := by
  refine ⟨fun x k hi lo hhi hlo => ?_, fun x y h => ?_, fun x y h => ?_⟩
  · exact ⟨congrArg hexchar (digestNibble_even x hhi), congrArg hexchar (digestNibble_odd x hlo)⟩
  · exact hash_eq_of_digestByte_eq fun k => List.map_inj_left.mp h k (List.mem_finRange k)
  · exact hash_eq_of_digestByte_eq
      (digestByte_eq_of_digestChar_eq fun n => List.map_inj_left.mp h n (List.mem_finRange n))

/-- Settles O58: the 64 characters are codes of digits. -/
theorem hexDigestIs64LowercaseDigits : Obligations.HexDigestIs64LowercaseDigits := by
  refine fun m => ⟨by simp [sha256Hex, digestHex], fun c hc => ?_⟩
  obtain ⟨n, -, rfl⟩ := List.mem_map.mp hc
  exact hexchar_range _

/-- Settles O56, by the table. -/
theorem hexcharTable : Obligations.HexcharTable := by
  unfold Obligations.HexcharTable
  decide

/-! ### Vectors and constants -/

/-- Settles O48, by the ten values. -/
theorem sigmaVectors : Obligations.SigmaVectors := by
  unfold Obligations.SigmaVectors
  decide

/-- Settles O53, by the values of the worked example. -/
theorem firstRoundOfAbc : Obligations.FirstRoundOfAbc := by
  unfold Obligations.FirstRoundOfAbc
  decide

end Sys2Proof.Machine
end

section
/-! The constants (R22, R23) against the primes they are the roots of, and the known vector of `compress` (V2). -/

namespace Sys2Proof.Machine

/-- The primes below 312, in order. -/
def primesBelow312 : List Nat :=
  [2, 3, 5, 7, 11, 13, 17, 19, 23, 29, 31, 37, 41, 43, 47, 53, 59, 61, 67, 71, 73, 79, 83, 89, 97, 101, 103, 107, 109,
    113, 127, 131, 137, 139, 149, 151, 157, 163, 167, 173, 179, 181, 191, 193, 197, 199, 211, 223, 227, 229, 233, 239,
    241, 251, 257, 263, 269, 271, 277, 281, 283, 293, 307, 311]

/-- Trial division finds these and no others. -/
theorem filter_trialDivision_eq_primesBelow312 :
    ((List.range 312).filter fun p => decide (2 ≤ p) && (List.range p).all fun d => d < 2 || p % d != 0) =
      primesBelow312 := by
  decide +kernel

/-- Each round constant is the fraction of a cube root, cut after 32 bits (R22). -/
theorem K_isCubeRootFraction : ∀ i : Fin 64, ∀ p ∈ primesBelow312[i.val]?, ∃ q : Fin 7,
    (q.val * 2 ^ 32 + K[i].toNat) ^ 3 ≤ p * 2 ^ 96 ∧ p * 2 ^ 96 < (q.val * 2 ^ 32 + K[i].toNat + 1) ^ 3 := by
  decide +kernel

/-- Each initial value is the fraction of a square root, cut after 32 bits (R23). -/
theorem IV_isSquareRootFraction : ∀ i : Fin 8, ∀ p ∈ primesBelow312[i.val]?, ∃ q : Fin 5,
    (q.val * 2 ^ 32 + IV[i].toNat) ^ 2 ≤ p * 2 ^ 64 ∧ p * 2 ^ 64 < (q.val * 2 ^ 32 + IV[i].toNat + 1) ^ 2 := by
  decide +kernel

/-- Settles O55: the list of the primes, and the roots of each of them. -/
theorem romsAreTheRootsOfThePrimes : Obligations.RomsAreTheRootsOfThePrimes := by
  unfold Obligations.RomsAreTheRootsOfThePrimes
  rw [filter_trialDivision_eq_primesBelow312]
  exact ⟨rfl, K_isCubeRootFraction, IV_isSquareRootFraction⟩

/-- Settles O54, by the 48 derived words and the 64 rounds of the one block. -/
theorem compressOfAbc : Obligations.CompressOfAbc := by
  unfold Obligations.CompressOfAbc
  decide +kernel

end Sys2Proof.Machine
end
